-- ==== Sys2Proof/Word.lean ====
section
/-! DEFINITION. The machine's words: bytes, 16-bit words, nibbles, the 12-bit address immediate, and the byte-order mode. -/

namespace Sys2Proof

/-- A general register, a timer, a memory byte (`XLEN` = 8, 00_scope.md R7). -/
abbrev Byte := BitVec 8

/-- The index register, the program counter, a stack entry, an opcode (`ALEN` = `ILEN` = 16, 00_scope.md R7). -/
abbrev Word := BitVec 16

/-- A register index: a 4-bit field of the opcode, so always in range (10_state.md R20). -/
abbrev Reg := BitVec 4

/-- The 4-bit immediate `n` (30_encoding.md R71, R72). -/
abbrev Nibble := BitVec 4

/-- The 12-bit address immediate `nnn` (30_encoding.md R71, R72). -/
abbrev Addr12 := BitVec 12

/-- The byte-order mode `bo`, named by its effect (10_state.md R30, 92_eei_decisions.md D13). -/
inductive ByteOrder where
  | big
  | little
  deriving DecidableEq, Repr

end Sys2Proof
end

