-- ==== Sys2Proof/Syntax.lean ====
section
/-! DEFINITION. The instruction set: one constructor per row of spec/opcode_table.json (30_encoding.md R75). -/

namespace Sys2Proof

/-- The 35 instructions. `x`, `y` are register indices, `n`, `nn`, `nnn` immediates (30_encoding.md R71, R72). -/
inductive Instr where
  /-- `0000` no operation (40_control.md R100). -/
  | nop
  /-- `00E0` clear the display (44_display.md R150). -/
  | cls
  /-- `00EE` return (40_control.md R101). -/
  | ret
  /-- `1nnn` jump (40_control.md R102). -/
  | jp (nnn : Addr12)
  /-- `2nnn` call (40_control.md R103). -/
  | call (nnn : Addr12)
  /-- `3xnn` skip if equal to the immediate (41_skip.md R110). -/
  | seImm (x : Reg) (nn : Byte)
  /-- `4xnn` skip if not equal to the immediate (41_skip.md R111). -/
  | sneImm (x : Reg) (nn : Byte)
  /-- `5xy0` skip if the registers are equal (41_skip.md R112). -/
  | seReg (x y : Reg)
  /-- `6xnn` load the immediate (42_alu.md R120). -/
  | ldImm (x : Reg) (nn : Byte)
  /-- `7xnn` add the immediate (42_alu.md R121). -/
  | addImm (x : Reg) (nn : Byte)
  /-- `8xy0` move (42_alu.md R122). -/
  | ldReg (x y : Reg)
  /-- `8xy1` or (42_alu.md R123). -/
  | orReg (x y : Reg)
  /-- `8xy2` and (42_alu.md R124). -/
  | andReg (x y : Reg)
  /-- `8xy3` exclusive or (42_alu.md R125). -/
  | xorReg (x y : Reg)
  /-- `8xy4` add with carry out (42_alu.md R126). -/
  | addReg (x y : Reg)
  /-- `8xy5` subtract (42_alu.md R127). -/
  | subReg (x y : Reg)
  /-- `8xy6` shift right; the field `y` is ignored (42_alu.md R128, 30_encoding.md R76). -/
  | shr (x y : Reg)
  /-- `8xy7` reverse subtract (42_alu.md R129). -/
  | subnReg (x y : Reg)
  /-- `8xyE` shift left; the field `y` is ignored (42_alu.md R130, 30_encoding.md R76). -/
  | shl (x y : Reg)
  /-- `9xy0` skip if the registers differ (41_skip.md R113). -/
  | sneReg (x y : Reg)
  /-- `Annn` load the index register (43_index_memory.md R140). -/
  | ldI (nnn : Addr12)
  /-- `Bnnn` jump to `V0 + nnn` (40_control.md R104). -/
  | jpV0 (nnn : Addr12)
  /-- `Cxnn` random byte under a mask (42_alu.md R131). -/
  | rnd (x : Reg) (nn : Byte)
  /-- `Dxyn` draw a sprite (44_display.md R151). -/
  | drw (x y : Reg) (n : Nibble)
  /-- `Ex9E` skip if the key is pressed (45_keys_timers.md R160). -/
  | skp (x : Reg)
  /-- `ExA1` skip if the key is not pressed (45_keys_timers.md R161). -/
  | sknp (x : Reg)
  /-- `Fx07` read the delay timer (45_keys_timers.md R162). -/
  | ldVxDt (x : Reg)
  /-- `Fx0A` wait for a key (45_keys_timers.md R163). -/
  | ldVxK (x : Reg)
  /-- `Fx15` write the delay timer (45_keys_timers.md R164). -/
  | ldDtVx (x : Reg)
  /-- `Fx18` write the sound timer (45_keys_timers.md R165). -/
  | ldStVx (x : Reg)
  /-- `Fx1E` add to the index register (43_index_memory.md R141). -/
  | addI (x : Reg)
  /-- `Fx29` glyph address (43_index_memory.md R142). -/
  | ldF (x : Reg)
  /-- `Fx33` store the decimal digits (43_index_memory.md R143). -/
  | ldB (x : Reg)
  /-- `Fx55` store `V0` to `Vx` (43_index_memory.md R144). -/
  | stRegs (x : Reg)
  /-- `Fx65` load `V0` to `Vx` (43_index_memory.md R145). -/
  | ldRegs (x : Reg)
  deriving DecidableEq, Repr

/-- The row of spec/opcode_table.json an instruction belongs to: its `id` in the table of 30_encoding.md R75. -/
def Instr.mnemonic : Instr → String
  | .nop => "NOP"
  | .cls => "CLS"
  | .ret => "RET"
  | .jp _ => "JP"
  | .call _ => "CALL"
  | .seImm _ _ => "SE_IMM"
  | .sneImm _ _ => "SNE_IMM"
  | .seReg _ _ => "SE_REG"
  | .ldImm _ _ => "LD_IMM"
  | .addImm _ _ => "ADD_IMM"
  | .ldReg _ _ => "LD_REG"
  | .orReg _ _ => "OR"
  | .andReg _ _ => "AND"
  | .xorReg _ _ => "XOR"
  | .addReg _ _ => "ADD_REG"
  | .subReg _ _ => "SUB"
  | .shr _ _ => "SHR"
  | .subnReg _ _ => "SUBN"
  | .shl _ _ => "SHL"
  | .sneReg _ _ => "SNE_REG"
  | .ldI _ => "LD_I"
  | .jpV0 _ => "JP_V0"
  | .rnd _ _ => "RND"
  | .drw _ _ _ => "DRW"
  | .skp _ => "SKP"
  | .sknp _ => "SKNP"
  | .ldVxDt _ => "LD_VX_DT"
  | .ldVxK _ => "LD_VX_K"
  | .ldDtVx _ => "LD_DT_VX"
  | .ldStVx _ => "LD_ST_VX"
  | .addI _ => "ADD_I"
  | .ldF _ => "LD_F"
  | .ldB _ => "LD_B"
  | .stRegs _ => "ST_REGS"
  | .ldRegs _ => "LD_REGS"

end Sys2Proof
end

