-- ==== Sys2Proof/Config.lean ====
section
/-! DEFINITION. What is fixed for the machine: its sizes (00_scope.md R7) and the one free value, the random source.

The two parameters the spec leaves to the model, `FONT` and `STACK_CAPACITY` (R8), stand in Machine/Ops.lean as
`fontTable` and `stackCapacity`. -/

namespace Sys2Proof.Config

/-- `MEM_SIZE`: the addressable byte locations, 0 to 4095 (00_scope.md R7). -/
abbrev memSize : Nat := 4096

/-- `PROG_START`: where programs are loaded, and the reset value of the program counter (00_scope.md R7). -/
abbrev progStart : Nat := 512

/-- `DISP_W`: display columns (00_scope.md R7). -/
abbrev dispW : Nat := 64

/-- `DISP_H`: display rows (00_scope.md R7). -/
abbrev dispH : Nat := 32

/-- `NREG`: general registers (00_scope.md R7). -/
abbrev nReg : Nat := 16

/-- `NKEYS`: key flags (00_scope.md R7). -/
abbrev nKeys : Nat := 16

/-- FREE VALUE. The byte the random source answers to the `k`-th request, `k` counted from 0 by `State.draws`
(42_alu.md R131; 92_eei_decisions.md D11: "any value 0 to 255, under no law"). It has no body: no proof can see it.
Log entry 3. -/
opaque randomByte : Nat → Byte

end Sys2Proof.Config
end

