-- ==== Sys2Proof/WellFormed.lean ====
section
/-! DEFINITION. What must hold of a word, of a program and of a host call's argument before the machine gives it a
meaning.

An `Instr` itself needs no check: its fields are bit vectors of the widths of 30_encoding.md R71, and every value of
every field is an operand the spec allows (30_encoding.md R72, R76; 10_state.md R20). -/

namespace Sys2Proof.WellFormed

/-- A word is legal exactly when 30_encoding.md R77's table of illegal opcodes does not list it. This is that table,
family by family (leading nibble), written apart from the decoder: the decoder can be held against it. -/
def legalWord (op : Word) : Bool :=
  let family := op.toNat / 4096
  let nn := op.toNat % 256
  let n := op.toNat % 16
  if family = 0 then op.toNat ∈ [0x0000, 0x00E0, 0x00EE]
  else if family = 5 then n = 0
  else if family = 8 then n ∉ [0x8, 0x9, 0xA, 0xB, 0xC, 0xD, 0xF]
  else if family = 9 then n = 0
  else if family = 0xE then nn ∈ [0x9E, 0xA1]
  else if family = 0xF then nn ∈ [0x07, 0x0A, 0x15, 0x18, 0x1E, 0x29, 0x33, 0x55, 0x65]
  else true

/-- The destination range of a bulk copy fits the memory (20_memory.md R66). -/
def blockFits (length first : Nat) : Bool := first + length ≤ Config.memSize

/-- A program fits above 512: at most 3584 bytes (70_reset_and_hazards.md R194). -/
def programFits (bytes : List Byte) : Bool := blockFits bytes.length Config.progStart

/-- A key index the host may report: 0 to 15 (60_exceptions.md R185). -/
def keyIndexFits (index : Nat) : Bool := index < Config.nKeys

end Sys2Proof.WellFormed
end

