-- ==== Sys2Proof/Decode.lean ====
section
/-! DEFINITION. Decoding a word and bytes, and after it the encoder (30_encoding.md R70 to R86). -/

namespace Sys2Proof

/-- `h`, bits 15:12, the operation family (30_encoding.md R71). -/
def fieldH (op : Word) : Nibble := op.extractLsb' 12 4

/-- `x`, bits 11:8 (30_encoding.md R71). -/
def fieldX (op : Word) : Reg := op.extractLsb' 8 4

/-- `y`, bits 7:4 (30_encoding.md R71). -/
def fieldY (op : Word) : Reg := op.extractLsb' 4 4

/-- `n`, bits 3:0 (30_encoding.md R71). -/
def fieldN (op : Word) : Nibble := op.extractLsb' 0 4

/-- `nn`, bits 7:0 (30_encoding.md R71). -/
def fieldNN (op : Word) : Byte := op.extractLsb' 0 8

/-- `nnn`, bits 11:0 (30_encoding.md R71). -/
def fieldNNN (op : Word) : Addr12 := op.extractLsb' 0 12

/-- Family 0: three fixed words and nothing else (30_encoding.md R74, R79). -/
def decodeFamily0 (nnn : Addr12) : Option Instr :=
  match nnn with
  | 0x000#12 => some .nop
  | 0x0E0#12 => some .cls
  | 0x0EE#12 => some .ret
  | _ => none

/-- Family 8, selected by the low nibble (30_encoding.md R75). -/
def decodeFamily8 (x y : Reg) (n : Nibble) : Option Instr :=
  match n with
  | 0x0#4 => some (.ldReg x y)
  | 0x1#4 => some (.orReg x y)
  | 0x2#4 => some (.andReg x y)
  | 0x3#4 => some (.xorReg x y)
  | 0x4#4 => some (.addReg x y)
  | 0x5#4 => some (.subReg x y)
  | 0x6#4 => some (.shr x y)
  | 0x7#4 => some (.subnReg x y)
  | 0xE#4 => some (.shl x y)
  | _ => none

/-- Family E, selected by the low byte (30_encoding.md R75). -/
def decodeFamilyE (x : Reg) (nn : Byte) : Option Instr :=
  match nn with
  | 0x9E#8 => some (.skp x)
  | 0xA1#8 => some (.sknp x)
  | _ => none

/-- Family F, selected by the low byte (30_encoding.md R75). -/
def decodeFamilyF (x : Reg) (nn : Byte) : Option Instr :=
  match nn with
  | 0x07#8 => some (.ldVxDt x)
  | 0x0A#8 => some (.ldVxK x)
  | 0x15#8 => some (.ldDtVx x)
  | 0x18#8 => some (.ldStVx x)
  | 0x1E#8 => some (.addI x)
  | 0x29#8 => some (.ldF x)
  | 0x33#8 => some (.ldB x)
  | 0x55#8 => some (.stRegs x)
  | 0x65#8 => some (.ldRegs x)
  | _ => none

/-- Decode one opcode: one of the 35 instructions or none (30_encoding.md R74, R75, R77). -/
def decode (op : Word) : Option Instr :=
  match fieldH op with
  | 0x0#4 => decodeFamily0 (fieldNNN op)
  | 0x1#4 => some (.jp (fieldNNN op))
  | 0x2#4 => some (.call (fieldNNN op))
  | 0x3#4 => some (.seImm (fieldX op) (fieldNN op))
  | 0x4#4 => some (.sneImm (fieldX op) (fieldNN op))
  | 0x5#4 => if fieldN op = 0#4 then some (.seReg (fieldX op) (fieldY op)) else none
  | 0x6#4 => some (.ldImm (fieldX op) (fieldNN op))
  | 0x7#4 => some (.addImm (fieldX op) (fieldNN op))
  | 0x8#4 => decodeFamily8 (fieldX op) (fieldY op) (fieldN op)
  | 0x9#4 => if fieldN op = 0#4 then some (.sneReg (fieldX op) (fieldY op)) else none
  | 0xA#4 => some (.ldI (fieldNNN op))
  | 0xB#4 => some (.jpV0 (fieldNNN op))
  | 0xC#4 => some (.rnd (fieldX op) (fieldNN op))
  | 0xD#4 => some (.drw (fieldX op) (fieldY op) (fieldN op))
  | 0xE#4 => decodeFamilyE (fieldX op) (fieldNN op)
  | _ => decodeFamilyF (fieldX op) (fieldNN op)

/-- Two bytes at consecutive addresses as one word, by the byte order (20_memory.md R55). -/
def joinBytes (bo : ByteOrder) (b0 b1 : Byte) : Word :=
  match bo with
  | .big => b0 ++ b1
  | .little => b1 ++ b0

/-- Why bytes are no instruction: too few of them, or a word that no row matches (30_encoding.md R77). -/
inductive DecodeError where
  | tooShort
  | unimplementedOpcode (op : Word)
  deriving DecidableEq, Repr

/-- Decode the first instruction of a byte sequence, and give the bytes after it (30_encoding.md R70). -/
def decodeBytes (bo : ByteOrder) : List Byte → Except DecodeError (Instr × List Byte)
  | b0 :: b1 :: rest =>
    match decode (joinBytes bo b0 b1) with
    | some i => .ok (i, rest)
    | none => .error (.unimplementedOpcode (joinBytes bo b0 b1))
  | _ => .error .tooShort

/-- The two bytes of a word in memory, lower address first (20_memory.md R55, 30_encoding.md R86). -/
def splitWord (bo : ByteOrder) (op : Word) : List Byte :=
  match bo with
  | .big => [op.extractLsb' 8 8, op.extractLsb' 0 8]
  | .little => [op.extractLsb' 0 8, op.extractLsb' 8 8]

/-- The word of an opcode-table row's number: its low `nbits` bits, every other bit of the 16-bit word 0. -/
def tableWord (nbits w : Nat) : Word := BitVec.ofNat 16 (w % 2 ^ nbits)

/-- The instruction the decoder reads from a table word laid out in memory in the default byte order. -/
def decodeTableWord (nbits w : Nat) : Option Instr :=
  match decodeBytes .big (splitWord .big (tableWord nbits w)) with
  | .ok (i, _) => some i
  | .error _ => none

/-- Format A: fixed `h`, operand `nnn` (30_encoding.md R73). -/
def encodeA (h : Nibble) (nnn : Addr12) : Word := h ++ nnn

/-- Format XI: fixed `h`, operands `x`, `nn` (30_encoding.md R73). -/
def encodeXI (h : Nibble) (x : Reg) (nn : Byte) : Word := h ++ x ++ nn

/-- Formats XY and XYN: `h`, `x`, `y`, and the low nibble, fixed in XY (30_encoding.md R73). -/
def encodeXYN (h : Nibble) (x y : Reg) (n : Nibble) : Word := h ++ x ++ y ++ n

/-- Encode an instruction (30_encoding.md R73, R75, R86). Format XF is XI with a fixed low byte. -/
def encode : Instr → Word
  | .nop => 0x0000#16
  | .cls => 0x00E0#16
  | .ret => 0x00EE#16
  | .jp nnn => encodeA 0x1#4 nnn
  | .call nnn => encodeA 0x2#4 nnn
  | .seImm x nn => encodeXI 0x3#4 x nn
  | .sneImm x nn => encodeXI 0x4#4 x nn
  | .seReg x y => encodeXYN 0x5#4 x y 0x0#4
  | .ldImm x nn => encodeXI 0x6#4 x nn
  | .addImm x nn => encodeXI 0x7#4 x nn
  | .ldReg x y => encodeXYN 0x8#4 x y 0x0#4
  | .orReg x y => encodeXYN 0x8#4 x y 0x1#4
  | .andReg x y => encodeXYN 0x8#4 x y 0x2#4
  | .xorReg x y => encodeXYN 0x8#4 x y 0x3#4
  | .addReg x y => encodeXYN 0x8#4 x y 0x4#4
  | .subReg x y => encodeXYN 0x8#4 x y 0x5#4
  | .shr x y => encodeXYN 0x8#4 x y 0x6#4
  | .subnReg x y => encodeXYN 0x8#4 x y 0x7#4
  | .shl x y => encodeXYN 0x8#4 x y 0xE#4
  | .sneReg x y => encodeXYN 0x9#4 x y 0x0#4
  | .ldI nnn => encodeA 0xA#4 nnn
  | .jpV0 nnn => encodeA 0xB#4 nnn
  | .rnd x nn => encodeXI 0xC#4 x nn
  | .drw x y n => encodeXYN 0xD#4 x y n
  | .skp x => encodeXI 0xE#4 x 0x9E#8
  | .sknp x => encodeXI 0xE#4 x 0xA1#8
  | .ldVxDt x => encodeXI 0xF#4 x 0x07#8
  | .ldVxK x => encodeXI 0xF#4 x 0x0A#8
  | .ldDtVx x => encodeXI 0xF#4 x 0x15#8
  | .ldStVx x => encodeXI 0xF#4 x 0x18#8
  | .addI x => encodeXI 0xF#4 x 0x1E#8
  | .ldF x => encodeXI 0xF#4 x 0x29#8
  | .ldB x => encodeXI 0xF#4 x 0x33#8
  | .stRegs x => encodeXI 0xF#4 x 0x55#8
  | .ldRegs x => encodeXI 0xF#4 x 0x65#8

/-- One row of the opcode map: its id, the value of its fixed bits, and the mask of its fixed bits
(30_encoding.md R73, R75). -/
structure OpcodeRow where
  id : String
  pattern : Word
  mask : Word
  deriving DecidableEq, Repr

/-- An opcode is an instance of a row when its fixed bits are the row's (30_encoding.md R73). -/
def rowMatches (op : Word) (r : OpcodeRow) : Bool := op &&& r.mask == r.pattern

/-- The rows of the families 0 to 7 (30_encoding.md R75). -/
def opcodeRowsLow : List OpcodeRow :=
  [⟨"NOP", 0x0000, 0xFFFF⟩, ⟨"CLS", 0x00E0, 0xFFFF⟩, ⟨"RET", 0x00EE, 0xFFFF⟩, ⟨"JP", 0x1000, 0xF000⟩,
   ⟨"CALL", 0x2000, 0xF000⟩, ⟨"SE_IMM", 0x3000, 0xF000⟩, ⟨"SNE_IMM", 0x4000, 0xF000⟩, ⟨"SE_REG", 0x5000, 0xF00F⟩,
   ⟨"LD_IMM", 0x6000, 0xF000⟩, ⟨"ADD_IMM", 0x7000, 0xF000⟩]

/-- The rows of the families 8 to D (30_encoding.md R75). -/
def opcodeRowsMiddle : List OpcodeRow :=
  [⟨"LD_REG", 0x8000, 0xF00F⟩, ⟨"OR", 0x8001, 0xF00F⟩, ⟨"AND", 0x8002, 0xF00F⟩, ⟨"XOR", 0x8003, 0xF00F⟩,
   ⟨"ADD_REG", 0x8004, 0xF00F⟩, ⟨"SUB", 0x8005, 0xF00F⟩, ⟨"SHR", 0x8006, 0xF00F⟩, ⟨"SUBN", 0x8007, 0xF00F⟩,
   ⟨"SHL", 0x800E, 0xF00F⟩, ⟨"SNE_REG", 0x9000, 0xF00F⟩, ⟨"LD_I", 0xA000, 0xF000⟩, ⟨"JP_V0", 0xB000, 0xF000⟩,
   ⟨"RND", 0xC000, 0xF000⟩, ⟨"DRW", 0xD000, 0xF000⟩]

/-- The rows of the families E and F (30_encoding.md R75). -/
def opcodeRowsHigh : List OpcodeRow :=
  [⟨"SKP", 0xE09E, 0xF0FF⟩, ⟨"SKNP", 0xE0A1, 0xF0FF⟩, ⟨"LD_VX_DT", 0xF007, 0xF0FF⟩, ⟨"LD_VX_K", 0xF00A, 0xF0FF⟩,
   ⟨"LD_DT_VX", 0xF015, 0xF0FF⟩, ⟨"LD_ST_VX", 0xF018, 0xF0FF⟩, ⟨"ADD_I", 0xF01E, 0xF0FF⟩, ⟨"LD_F", 0xF029, 0xF0FF⟩,
   ⟨"LD_B", 0xF033, 0xF0FF⟩, ⟨"ST_REGS", 0xF055, 0xF0FF⟩, ⟨"LD_REGS", 0xF065, 0xF0FF⟩]

/-- The opcode map of 30_encoding.md R75, its 35 rows in order. -/
def opcodeRows : List OpcodeRow := opcodeRowsLow ++ opcodeRowsMiddle ++ opcodeRowsHigh

end Sys2Proof
end

