-- ==== Sys2Proof/Machine/State.lean ====
section
/-! DEFINITION. The machine's state as plain data, its reset value, and the reasons a step or a host call can stop. -/

namespace Sys2Proof.Machine

/-- The memory as the list of the bytes that differ from their reset contents, addresses rising
(log entry 14); read and written only by the operations of Machine/Ops.lean. -/
abbrev Memory := List Host.Cell

/-- The display buffer: 32 rows of 64 boolean cells, row-major (10_state.md R27). -/
abbrev Display := Vector (Vector Bool Config.dispW) Config.dispH

/-- The machine state (10_state.md): everything the spec names as state, and `draws`. -/
structure State where
  /-- `V0` to `VF`; `VF` is also the flag register (R20, R21). -/
  v : Vector Byte Config.nReg
  /-- `I`, the index register (R22). -/
  i : Word
  /-- The program counter (R23). -/
  pc : Word
  /-- The call stack, the most recently pushed return address first (R24). -/
  stack : List Word
  /-- `DT`, the delay timer (R25). -/
  dt : Byte
  /-- `ST`, the sound timer (R26). -/
  st : Byte
  /-- The display buffer (R27). -/
  disp : Display
  /-- The key flags, true for pressed (R28). -/
  key : Vector Bool Config.nKeys
  /-- The addressable memory (R29, 20_memory.md R50). -/
  mem : Memory
  /-- The byte-order mode (R30). -/
  bo : ByteOrder
  /-- THE MODEL'S OWN FIELD: how many bytes the random source has been asked for, the argument of the free value
  `Config.randomByte` (log entry 3). -/
  draws : Nat
  deriving DecidableEq, Repr

/-- The machine right after reset (10_state.md R36, 70_reset_and_hazards.md R190, R191). No memory byte is listed: an
unlisted byte reads as its reset contents. `draws` is the model's own field, its value here a DESIGN CHOICE. -/
def State.reset : State where
  v := Vector.replicate Config.nReg 0
  i := 0
  pc := BitVec.ofNat 16 Config.progStart
  stack := []
  dt := 0
  st := 0
  disp := Vector.replicate Config.dispH (Vector.replicate Config.dispW false)
  key := Vector.replicate Config.nKeys false
  mem := []
  bo := .big
  draws := 0

/-- Why a step has no next state. The first two are the machine's own fatal conditions (60_exceptions.md R170); the
others are behaviour the source leaves undefined, where the spec has a model fault (R174). -/
inductive Fault where
  /-- `Fatal(UnimplementedOpcode)` with the opcode and its fetch address: raised by `step` on a word no row matches
  (60_exceptions.md R171, R173). The hardware's own outcome. Safe. -/
  | unimplementedOpcode (op addr : Word)
  /-- `Fatal(StackUnderflow)` with the opcode and its fetch address: raised by RET on an empty call stack
  (60_exceptions.md R172, R173). The hardware's own outcome. Safe. -/
  | stackUnderflow (op addr : Word)
  /-- `Undefined(MemRange)`: raised by the fetch, DRW, LD_B, ST_REGS and LD_REGS when they would access an address
  above 4095 (20_memory.md R57). Safe: the model stops where the hardware's behaviour is not known. -/
  | memRange
  /-- `Undefined(KeyRange)`: raised by SKP and SKNP when `V[x]` is above 15 (45_keys_timers.md R166). Safe, as
  `memRange`. -/
  | keyRange
  /-- `Undefined(StackOverflow)`: raised by CALL at a finite `STACK_CAPACITY` (40_control.md R103); with the default,
  unbounded, nobody raises it. Safe, as `memRange`. -/
  | stackOverflow
  deriving DecidableEq, Repr

/-- Why a call has no meaning. `step` refuses nothing; the last three are raised by the host operations only. -/
inductive Refusal where
  /-- Raised by `exec` for an instruction the model has no meaning for: none. Safe. -/
  | notModelled (mnemonic : String)
  /-- Raised by `setPressed` with an index above 15 (60_exceptions.md R185, 92_eei_decisions.md D19). Safe. -/
  | keyIndexOutOfContract
  /-- Raised by `writeBlock` when the destination does not fit the memory (20_memory.md R66, D19), and so by
  `loadProgram` with more than 3584 bytes (70_reset_and_hazards.md R194). Safe. -/
  | blockOutOfContract
  /-- Raised by `Session.call` for anything but reset and snapshot after a fatal condition (60_exceptions.md R177,
  D10). Safe. -/
  | runIsOver
  deriving DecidableEq, Repr

/-- What a step or a meaning answers (00_scope.md R14). -/
abbrev Answer := Host.Outcome State Fault Refusal

end Sys2Proof.Machine
end

