-- ==== Sys2Proof/Machine/Ops.lean ====
section
/-! DEFINITION. The named operations over registers, memory, display, keys and call stack, the fetch, and the two fatal
conditions. Every meaning goes through these. -/

namespace Sys2Proof.Machine

/-- Run `body 0`, then `body 1`, up to `body (n - 1)`: the spec's `for k from 0 to n - 1` (00_scope.md R13). -/
def forUpTo {α : Type} (body : Nat → α → α) : Nat → α → α
  | 0, a => a
  | n + 1, a => body n (forUpTo body n a)

/-! Writing one field of the state. -/

/-- Replace the general registers. -/
def setV (b : Vector Byte Config.nReg) (s : State) : State := { s with v := b }
/-- `I <- b` (10_state.md R22). -/
def setI (b : Word) (s : State) : State := { s with i := b }
/-- `pc <- b` (10_state.md R23). -/
def setPc (b : Word) (s : State) : State := { s with pc := b }
/-- Replace the call stack. -/
def setStack (b : List Word) (s : State) : State := { s with stack := b }
/-- `DT <- b` (10_state.md R25). -/
def setDt (b : Byte) (s : State) : State := { s with dt := b }
/-- `ST <- b` (10_state.md R26). -/
def setSt (b : Byte) (s : State) : State := { s with st := b }
/-- Replace the display buffer. -/
def setDisp (b : Display) (s : State) : State := { s with disp := b }
/-- Replace the key flags. -/
def setKey (b : Vector Bool Config.nKeys) (s : State) : State := { s with key := b }
/-- Replace the memory. -/
def setMem (b : Memory) (s : State) : State := { s with mem := b }
/-- `bo <- b` (10_state.md R30). -/
def setBo (b : ByteOrder) (s : State) : State := { s with bo := b }
/-- Replace the count of random bytes drawn. -/
def setDraws (b : Nat) (s : State) : State := { s with draws := b }

/-! General registers (10_state.md R20). -/

/-- `V[r]`. -/
def reg (s : State) (r : Reg) : Byte := s.v[r.toNat]'r.isLt

/-- `V[r] <- b`. -/
def setReg (r : Reg) (b : Byte) (s : State) : State := setV (s.v.set r.toNat b r.isLt) s

/-- `VF`, the flag register (10_state.md R21). -/
def flagReg : Reg := 0xF#4

/-- `VF <- 1` or `0` (10_state.md R34). -/
def setFlag (c : Bool) (s : State) : State := setReg flagReg (if c then 1 else 0) s

/-! The program counter (10_state.md R23). -/

/-- `pc <- (pc + 2) mod 2^16`: the advance of the fetch (30_encoding.md R81), and the skip (41_skip.md R114). DESIGN
CHOICE of the spec (D7), safe: log entry 6. -/
def advancePc (s : State) : State := setPc (s.pc + 2) s

/-- `if c: skip` (41_skip.md R114). -/
def skipIf (c : Bool) (s : State) : State := if c then advancePc s else s

/-- The address the executing instruction was fetched from: `pc - 2`, the fetch having advanced it
(60_exceptions.md R173). -/
def fetchedFrom (s : State) : Word := s.pc - 2

/-! Memory (20_memory.md). -/

/-- PRESUMED, unsafe (log entry 1): the parameter `FONT`, at the spec's default, marked there as general knowledge and
not in the source (20_memory.md R52, 92_eei_decisions.md D12). -/
def fontTable : List Byte :=
  [0xF0, 0x90, 0x90, 0x90, 0xF0] ++ [0x20, 0x60, 0x20, 0x20, 0x70] ++
  [0xF0, 0x10, 0xF0, 0x80, 0xF0] ++ [0xF0, 0x10, 0xF0, 0x10, 0xF0] ++
  [0x90, 0x90, 0xF0, 0x10, 0x10] ++ [0xF0, 0x80, 0xF0, 0x10, 0xF0] ++
  [0xF0, 0x80, 0xF0, 0x90, 0xF0] ++ [0xF0, 0x10, 0x20, 0x40, 0x40] ++
  [0xF0, 0x90, 0xF0, 0x90, 0xF0] ++ [0xF0, 0x90, 0xF0, 0x10, 0xF0] ++
  [0xF0, 0x90, 0xF0, 0x90, 0x90] ++ [0xE0, 0x90, 0xE0, 0x90, 0xE0] ++
  [0xF0, 0x80, 0x80, 0x80, 0xF0] ++ [0xE0, 0x90, 0x90, 0x90, 0xE0] ++
  [0xF0, 0x80, 0xF0, 0x80, 0xF0] ++ [0xF0, 0x80, 0xF0, 0x80, 0x80]

/-- What an address holds after reset, and so what an unlisted address reads as: the font table at 0 to 79, zero above
(10_state.md R36, 20_memory.md R51). DESIGN CHOICE of the spec (D17), unsafe: log entry 7. -/
def initialByte (a : Nat) : Byte := fontTable.getD a 0

/-- The canonical form: addresses strictly rising, inside the memory, and no byte equal to its reset contents. -/
abbrev Memory.wf (m : Memory) : Prop :=
  m.Pairwise (fun c d => c.1 < d.1) ∧ ∀ c ∈ m, c.1 < Config.memSize ∧ c.2 ≠ initialByte c.1

/-- `mem[a]` (20_memory.md R54). DESIGN CHOICE, safe: log entry 14. -/
def Memory.read (m : Memory) (a : Nat) : Byte := (m.lookup a).getD (initialByte a)

/-- List the byte `b` at the address `a`, keeping addresses rising. -/
def Memory.insert (a : Nat) (b : Byte) : Memory → Memory
  | [] => [(a, b)]
  | c :: m => if a < c.1 then (a, b) :: c :: m else if a = c.1 then (a, b) :: m else c :: Memory.insert a b m

/-- Unlist the address `a`. -/
def Memory.erase (a : Nat) (m : Memory) : Memory := m.filter (fun c => c.1 != a)

/-- `mem[a] <- b` (20_memory.md R54), keeping the canonical form. -/
def Memory.write (m : Memory) (a : Nat) (b : Byte) : Memory :=
  if b = initialByte a then m.erase a else m.insert a b

/-- `MemRead(a, 1)` (20_memory.md R54). -/
def readByte (s : State) (a : Nat) : Byte := s.mem.read a

/-- `MemWrite(a, 1, b)` (20_memory.md R54). -/
def writeByte (a : Nat) (b : Byte) (s : State) : State := setMem (s.mem.write a b) s

/-- No address of the `count` ones from `first` on is above 4095; no address at all is (20_memory.md R57,
44_display.md R154). -/
def inMemory (first count : Nat) : Bool := count = 0 || first + count ≤ Config.memSize

/-- Go on when the whole range lies in memory, else end the step with `Undefined(MemRange)`: the check precedes every
write of the instruction (20_memory.md R57). DESIGN CHOICE of the spec (D4), safe: log entry 4. -/
def withinMemory (first count : Nat) (next : State) : Answer :=
  if inMemory first count then .next next else .fault .memRange

/-- Write the bytes at consecutive addresses from `a` on (20_memory.md R66). -/
def writeBytes (a : Nat) : List Byte → State → State
  | [], s => s
  | b :: bs, s => writeBytes (a + 1) bs (writeByte a b s)

/-- `V[k] <- mem[base + k]` for `k` from 0 to `count - 1` (43_index_memory.md R145). -/
def loadRegs (base count : Nat) (s : State) : State :=
  forUpTo (fun k t => setReg (BitVec.ofNat 4 k) (readByte t (base + k)) t) count s

/-- `mem[base + k] <- V[k]` for `k` from 0 to `count - 1` (43_index_memory.md R144). -/
def storeRegs (base count : Nat) (s : State) : State :=
  forUpTo (fun k t => writeByte (base + k) (reg t (BitVec.ofNat 4 k)) t) count s

/-! The call stack (10_state.md R24). -/

/-- The parameter `STACK_CAPACITY` at the spec's default, unbounded (00_scope.md R8, 92_eei_decisions.md D8).
DESIGN CHOICE, unsafe (log entry 2). -/
def stackCapacity : Option Nat := none

/-- The stack has no room for another entry. -/
def stackFull (capacity : Option Nat) (s : State) : Bool :=
  match capacity with
  | none => false
  | some n => n ≤ s.stack.length

/-- `Push(b)`. -/
def push (b : Word) (s : State) : State := setStack (b :: s.stack) s

/-! The display buffer (10_state.md R27). -/

/-- `disp[px][py]` of a buffer. -/
def cellOf (d : Display) (px : Fin Config.dispW) (py : Fin Config.dispH) : Bool := (d[py.1])[px.1]

/-- `disp[px][py]`. -/
def cell (s : State) (px : Fin Config.dispW) (py : Fin Config.dispH) : Bool := cellOf s.disp px py

/-- `disp[px][py] <- b`. -/
def setCellOf (px : Fin Config.dispW) (py : Fin Config.dispH) (b : Bool) (d : Display) : Display :=
  d.set py.1 ((d[py.1]).set px.1 b)

/-- Every cell off (44_display.md R150). -/
def clearDisplay : Display := Vector.replicate Config.dispH (Vector.replicate Config.dispW false)

/-- A display being drawn on, and whether a cell that was on has been toggled (44_display.md R151). -/
abbrev Canvas := Display × Bool

/-- Toggle one cell: `hit` becomes 1 if the cell was on (44_display.md R151). -/
def toggleCell (px : Fin Config.dispW) (py : Fin Config.dispH) (c : Canvas) : Canvas :=
  (setCellOf px py (!cellOf c.1 px py) c.1, c.2 || cellOf c.1 px py)

/-- The column `(vx0 + col) mod 64` (44_display.md R152). -/
def spriteColumn (vx : Byte) (col : Nat) : Fin Config.dispW := Fin.ofNat Config.dispW (vx.toNat + col)

/-- The row `(vy0 + row) mod 32` (44_display.md R152). -/
def spriteRow (vy : Byte) (row : Nat) : Fin Config.dispH := Fin.ofNat Config.dispH (vy.toNat + row)

/-- Bit `7 - col` of a sprite byte: column 0 is the most significant bit (44_display.md R151). -/
def spriteBit (b : Byte) (col : Nat) : Bool := b.getLsbD (7 - col)

/-- One sprite row, its eight columns in order (44_display.md R151). -/
def drawRow (vx vy : Byte) (row : Nat) (b : Byte) (c : Canvas) : Canvas :=
  forUpTo (fun col c => if spriteBit b col then toggleCell (spriteColumn vx col) (spriteRow vy row) c else c) 8 c

/-- The whole sprite of `n` rows, row `row` being the byte `rows row` (44_display.md R151). -/
def drawSprite (vx vy : Byte) (rows : Nat → Byte) (n : Nat) (c : Canvas) : Canvas :=
  forUpTo (fun row c => drawRow vx vy row (rows row) c) n c

/-! Keys (10_state.md R28). -/

/-- `key[k]`. -/
def keyFlag (s : State) (k : Fin Config.nKeys) : Bool := s.key[k.1]

/-- The least index of a pressed key, scanning from 0 to 15 (45_keys_timers.md R163). -/
def firstPressed (s : State) : Option Nat := s.key.toList.findIdx? id

/-! The random source (42_alu.md R131). -/

/-- The byte the next request gets: a free value. DESIGN CHOICE, safe: log entry 3. -/
def randomByte (s : State) : Byte := Config.randomByte s.draws

/-- One byte has been requested. -/
def countDraw (s : State) : State := setDraws (s.draws + 1) s

/-! The fatal conditions (60_exceptions.md R170 to R177). Taking one is the machine's whole exception entry: nothing is
saved and nothing redirected, the step answers the condition, and the state is left with only `pc` advanced (R176).
There is no return from one (R177). -/

/-- `raise Fatal(UnimplementedOpcode)` with `(op, a)` (60_exceptions.md R171, R173). -/
def raiseUnimplemented (op addr : Word) : Answer := .fault (.unimplementedOpcode op addr)

/-- `raise Fatal(StackUnderflow)` with `(op, a)` (60_exceptions.md R172, R173). -/
def raiseStackUnderflow (op addr : Word) : Answer := .fault (.stackUnderflow op addr)

/-- The triple `(code, op, a)` a fatal condition delivers; behaviour the source leaves undefined delivers none
(60_exceptions.md R170, R173, R174). DESIGN CHOICE of the spec (D9), safe: log entry 8. -/
def diagnostic : Fault → Option (Nat × Word × Word)
  | .unimplementedOpcode op addr => some (1, op, addr)
  | .stackUnderflow op addr => some (2, op, addr)
  | .memRange => none
  | .keyRange => none
  | .stackOverflow => none

/-- The state a fatal step leaves, `s` being the state before the step: `pc = a + 2`, all else as before
(60_exceptions.md R176, 30_encoding.md R83). DESIGN CHOICE of the spec (D10), safe: log entry 8. -/
def leftByFatal (s : State) : State := advancePc s

/-! Fetching (30_encoding.md R81). -/

/-- `MemRead(a, 2)`: the word at `a`, by the byte order; none when it does not lie in memory (20_memory.md R55, R57).
DESIGN CHOICE of the spec: no alignment (D16), unsafe: log entry 13; no value beyond memory (D4), safe: log entry 4.
-/
def readWord (s : State) (a : Nat) : Option Word :=
  if inMemory a 2 then some (joinBytes s.bo (readByte s a) (readByte s (a + 1))) else none

/-- The word the next step executes. -/
def fetch (s : State) : Option Word := readWord s s.pc.toNat

/-- Place a word at `pc`, as the byte order lays it out; a word that does not fit the memory is not placed. -/
def placeWord (op : Word) (s : State) : State :=
  if inMemory s.pc.toNat 2 then writeBytes s.pc.toNat (splitWord s.bo op) s else s

end Sys2Proof.Machine
end

