-- ==== Sys2Proof/Machine/Flags.lean ====
section
/-! DEFINITION. The 8-bit arithmetic and its flags: computed exactly on the integers and then reduced modulo 256
(42_alu.md R132). -/

namespace Sys2Proof.Machine

/-- `(a + b) mod 256` (42_alu.md R126). -/
def sum8 (a b : Byte) : Byte := BitVec.ofNat 8 (a.toNat + b.toNat)

/-- The carry out: the exact sum is above 255 (42_alu.md R126). -/
def carryOut (a b : Byte) : Bool := 255 < a.toNat + b.toNat

/-- `(a - b) mod 256` (42_alu.md R127, R129). -/
def difference8 (a b : Byte) : Byte := BitVec.ofNat 8 (a.toNat + 256 - b.toNat)

/-- No borrow in `a - b`: the value of `VF` is 0 exactly when `a < b` (42_alu.md R127, R129). -/
def noBorrow (a b : Byte) : Bool := b.toNat ≤ a.toNat

/-- The bit a right shift drops, bit 0 (42_alu.md R128). -/
def lowBit (a : Byte) : Bool := a.getLsbD 0

/-- The bit a left shift drops, bit 7 (42_alu.md R130). -/
def highBit (a : Byte) : Bool := a.getLsbD 7

/-- Logical shift right by one (42_alu.md R128). -/
def shiftRight1 (a : Byte) : Byte := BitVec.ofNat 8 (a.toNat / 2)

/-- Shift left by one, truncated to 8 bits (42_alu.md R130). -/
def shiftLeft1 (a : Byte) : Byte := BitVec.ofNat 8 (a.toNat * 2)

/-- `V[x] <- result; VF <- flag`: the flag is the last write, and wins when `x = F` (42_alu.md R133). DESIGN CHOICE of
the spec (D2), unsafe: log entry 5. -/
def resultThenFlag (x : Reg) (result : Byte) (flag : Bool) (s : State) : State := setFlag flag (setReg x result s)

/-- `VF <- flag; V[x] <- shift V[x]`: the shift reads `V[x]` after the flag is written (42_alu.md R133). DESIGN CHOICE
of the spec (D2), unsafe: log entry 5. -/
def flagThenShift (x : Reg) (flag : Bool) (shift : Byte → Byte) (s : State) : State :=
  setReg x (shift (reg (setFlag flag s) x)) (setFlag flag s)

end Sys2Proof.Machine
end

