-- ==== Sys2Proof/Machine/Alu.lean ====
section
/-! DEFINITION. ALU and register instructions (42_alu.md). Operands are read before any write of the instruction. -/

namespace Sys2Proof.Machine

/-- LD_IMM (R120). -/
def execLdImm (x : Reg) (nn : Byte) (s : State) : Answer := .next (setReg x nn s)

/-- ADD_IMM (R121): the carry out is discarded. -/
def execAddImm (x : Reg) (nn : Byte) (s : State) : Answer := .next (setReg x (sum8 (reg s x) nn) s)

/-- LD_REG (R122). -/
def execLdReg (x y : Reg) (s : State) : Answer := .next (setReg x (reg s y) s)

/-- OR (R123). -/
def execOrReg (x y : Reg) (s : State) : Answer := .next (setReg x (reg s x ||| reg s y) s)

/-- AND (R124). -/
def execAndReg (x y : Reg) (s : State) : Answer := .next (setReg x (reg s x &&& reg s y) s)

/-- XOR (R125). -/
def execXorReg (x y : Reg) (s : State) : Answer := .next (setReg x (reg s x ^^^ reg s y) s)

/-- ADD_REG (R126): `VF` is the carry out, written after `V[x]`. -/
def execAddReg (x y : Reg) (s : State) : Answer :=
  .next (resultThenFlag x (sum8 (reg s x) (reg s y)) (carryOut (reg s x) (reg s y)) s)

/-- SUB (R127): `V[x] - V[y]`; `VF` is NOT borrow, written after `V[x]`. -/
def execSubReg (x y : Reg) (s : State) : Answer :=
  .next (resultThenFlag x (difference8 (reg s x) (reg s y)) (noBorrow (reg s x) (reg s y)) s)

/-- SHR (R128): `VF` is the bit shifted out, written first; `y` is ignored (30_encoding.md R76). -/
def execShr (x _y : Reg) (s : State) : Answer := .next (flagThenShift x (lowBit (reg s x)) shiftRight1 s)

/-- SUBN (R129): `V[y] - V[x]`; `VF` is NOT borrow, written after `V[x]`. -/
def execSubnReg (x y : Reg) (s : State) : Answer :=
  .next (resultThenFlag x (difference8 (reg s y) (reg s x)) (noBorrow (reg s y) (reg s x)) s)

/-- SHL (R130): `VF` is the bit shifted out, written first; `y` is ignored (30_encoding.md R76). -/
def execShl (x _y : Reg) (s : State) : Answer := .next (flagThenShift x (highBit (reg s x)) shiftLeft1 s)

/-- RND (R131): one byte is requested and masked with `nn`. -/
def execRnd (x : Reg) (nn : Byte) (s : State) : Answer := .next (setReg x (randomByte s &&& nn) (countDraw s))

end Sys2Proof.Machine
end

