-- ==== Sys2Proof/Machine/Operands.lean ====
section
/-! DEFINITION. The operand forms: jump targets, index values, effective addresses, key indices, decimal digits. -/

namespace Sys2Proof.Machine

/-- `zext_16(nnn)`: an absolute target or an index value (30_encoding.md R72, 40_control.md R102). -/
def absolute (nnn : Addr12) : Word := nnn.setWidth 16

/-- `(zext_16(V0) + zext_16(nnn)) mod 2^16` (40_control.md R104). -/
def indexedTarget (s : State) (nnn : Addr12) : Word := (reg s 0).setWidth 16 + absolute nnn

/-- `(I + zext_16(V[x])) mod 2^16` (43_index_memory.md R141). DESIGN CHOICE of the spec on overflow (D6), unsafe: log
entry 6. -/
def indexPlus (s : State) (x : Reg) : Word := s.i + (reg s x).setWidth 16

/-- `zext_16(V[x]) * 5`, the address of a glyph (43_index_memory.md R142). -/
def glyphAddress (b : Byte) : Word := b.setWidth 16 * 5

/-- The effective address `I + k`, an integer, reduced by nothing (43_index_memory.md R146). -/
def effective (s : State) (k : Nat) : Nat := s.i.toNat + k

/-- The key a register's value selects; none above 15 (45_keys_timers.md R166). DESIGN CHOICE of the spec (D5), safe:
log entry 4. -/
def selectedKey (b : Byte) : Option (Fin Config.nKeys) :=
  if h : b.toNat < Config.nKeys then some ⟨b.toNat, h⟩ else none

/-- Hundreds, tens and units of a byte, one digit a byte (43_index_memory.md R143). -/
def decimalDigits (b : Byte) : List Byte :=
  [BitVec.ofNat 8 (b.toNat / 100), BitVec.ofNat 8 (b.toNat / 10 % 10), BitVec.ofNat 8 (b.toNat % 10)]

/-- How many registers `V0` to `V[x]` are (43_index_memory.md R144). -/
def blockLength (x : Reg) : Nat := x.toNat + 1

end Sys2Proof.Machine
end

