-- ==== Sys2Proof/Machine/Control.lean ====
section
/-! DEFINITION. Control transfer: NOP, RET, JP, CALL, JP_V0 (40_control.md). In every meaning `pc` already holds the
fetch address plus 2 (30_encoding.md R81). -/

namespace Sys2Proof.Machine

/-- NOP (R100). -/
def execNop (s : State) : Answer := .next s

/-- RET (R101): pop into `pc`; on an empty stack the fatal condition StackUnderflow (60_exceptions.md R172). -/
def execRet (s : State) : Answer :=
  match s.stack with
  | [] => raiseStackUnderflow (encode .ret) (fetchedFrom s)
  | top :: rest => .next (setPc top (setStack rest s))

/-- JP (R102). -/
def execJp (nnn : Addr12) (s : State) : Answer := .next (setPc (absolute nnn) s)

/-- CALL with a given `STACK_CAPACITY` (R103): push `pc`, the address after the CALL; at a finite capacity that is
reached, `Undefined(StackOverflow)`. DESIGN CHOICE of the spec on the finite case (D8), safe: log entry 2. -/
def callWithin (capacity : Option Nat) (nnn : Addr12) (s : State) : Answer :=
  if stackFull capacity s then .fault .stackOverflow else .next (setPc (absolute nnn) (push s.pc s))

/-- CALL (R103). -/
def execCall (nnn : Addr12) (s : State) : Answer := callWithin stackCapacity nnn s

/-- JP_V0 (R104). -/
def execJpV0 (nnn : Addr12) (s : State) : Answer := .next (setPc (indexedTarget s nnn) s)

end Sys2Proof.Machine
end

