-- ==== Sys2Proof/Machine/Display.lean ====
section
/-! DEFINITION. Display instructions: CLS and DRW (44_display.md). -/

namespace Sys2Proof.Machine

/-- CLS (R150): `VF` is not touched. -/
def execCls (s : State) : Answer := .next (setDisp clearDisplay s)

/-- The display and the collision that drawing the `n`-row sprite at `I` at `(V[x], V[y])` gives (R151). -/
def spriteDrawn (x y : Reg) (n : Nibble) (s : State) : Canvas :=
  drawSprite (reg s x) (reg s y) (fun row => readByte s (effective s row)) n.toNat (s.disp, false)

/-- DRW (R151): coordinates, `I` and the sprite are read first, `VF` is the last write, also with `n = 0` (R154).
DESIGN CHOICE of the spec (D3), unsafe: log entry 5. -/
def execDrw (x y : Reg) (n : Nibble) (s : State) : Answer :=
  withinMemory (effective s 0) n.toNat (setFlag (spriteDrawn x y n s).2 (setDisp (spriteDrawn x y n s).1 s))

end Sys2Proof.Machine
end

