-- ==== Sys2Proof/Machine/IndexMemory.lean ====
section
/-! DEFINITION. Index register and memory instructions (43_index_memory.md). None of them changes `I` but LD_I, ADD_I and
LD_F (R147). -/

namespace Sys2Proof.Machine

/-- LD_I (R140). -/
def execLdI (nnn : Addr12) (s : State) : Answer := .next (setI (absolute nnn) s)

/-- ADD_I (R141): modulo 2^16, and no flag. -/
def execAddI (x : Reg) (s : State) : Answer := .next (setI (indexPlus s x) s)

/-- LD_F (R142). -/
def execLdF (x : Reg) (s : State) : Answer := .next (setI (glyphAddress (reg s x)) s)

/-- LD_B (R143). -/
def execLdB (x : Reg) (s : State) : Answer :=
  withinMemory (effective s 0) 3 (writeBytes (effective s 0) (decimalDigits (reg s x)) s)

/-- ST_REGS (R144). -/
def execStRegs (x : Reg) (s : State) : Answer :=
  withinMemory (effective s 0) (blockLength x) (storeRegs (effective s 0) (blockLength x) s)

/-- LD_REGS (R145). -/
def execLdRegs (x : Reg) (s : State) : Answer :=
  withinMemory (effective s 0) (blockLength x) (loadRegs (effective s 0) (blockLength x) s)

end Sys2Proof.Machine
end

