-- ==== Sys2Proof/Machine/KeysTimers.lean ====
section
/-! DEFINITION. Key and timer instructions (45_keys_timers.md). -/

namespace Sys2Proof.Machine

/-- Skip when the selected key's flag is `want`; a key index above 15 is `Undefined(KeyRange)` (R166). -/
def skipOnKey (x : Reg) (want : Bool) (s : State) : Answer :=
  match selectedKey (reg s x) with
  | none => .fault .keyRange
  | some k => .next (skipIf (keyFlag s k == want) s)

/-- SKP (R160). -/
def execSkp (x : Reg) (s : State) : Answer := skipOnKey x true s

/-- SKNP (R161). -/
def execSknp (x : Reg) (s : State) : Answer := skipOnKey x false s

/-- LD_VX_DT (R162). -/
def execLdVxDt (x : Reg) (s : State) : Answer := .next (setReg x s.dt s)

/-- LD_VX_K (R163): the least pressed key's index, or back to this instruction when none is pressed. -/
def execLdVxK (x : Reg) (s : State) : Answer :=
  match firstPressed s with
  | some k => .next (setReg x (BitVec.ofNat 8 k) s)
  | none => .next (setPc (fetchedFrom s) s)

/-- LD_DT_VX (R164). -/
def execLdDtVx (x : Reg) (s : State) : Answer := .next (setDt (reg s x) s)

/-- LD_ST_VX (R165). -/
def execLdStVx (x : Reg) (s : State) : Answer := .next (setSt (reg s x) s)

end Sys2Proof.Machine
end

