-- ==== Sys2Proof/Machine/Skip.lean ====
section
/-! DEFINITION. Conditional skips on register values: SE_IMM, SNE_IMM, SE_REG, SNE_REG (41_skip.md). -/

namespace Sys2Proof.Machine

/-- SE_IMM (R110). -/
def execSeImm (x : Reg) (nn : Byte) (s : State) : Answer := .next (skipIf (reg s x = nn) s)

/-- SNE_IMM (R111). -/
def execSneImm (x : Reg) (nn : Byte) (s : State) : Answer := .next (skipIf (reg s x ≠ nn) s)

/-- SE_REG (R112). -/
def execSeReg (x y : Reg) (s : State) : Answer := .next (skipIf (reg s x = reg s y) s)

/-- SNE_REG (R113). -/
def execSneReg (x y : Reg) (s : State) : Answer := .next (skipIf (reg s x ≠ reg s y) s)

end Sys2Proof.Machine
end

