-- ==== Sys2Proof/Machine/Step.lean ====
section
/-! DEFINITION. One step: fetch, advance, decode, execute (30_encoding.md R81). -/

namespace Sys2Proof.Machine

/-- One step (30_encoding.md R81). The fetch range is checked first, then the decoding, then the instruction's own
check (60_exceptions.md R175). The instruction executes on the state whose `pc` is already the fetch address plus 2.
DESIGN CHOICE: no host operation happens in it, unsafe for runs of steps alone: log entry 9. -/
def step (s : State) : Host.Outcome State Fault Refusal :=
  match fetch s with
  | none => .fault .memRange
  | some op =>
    match decode op with
    | none => raiseUnimplemented op s.pc
    | some i => exec i (advancePc s)

/-- The state with an opcode-table word placed where `step` fetches its next instruction: at `pc`, in the byte order in
force. It stands for the load of a program from outside (log entry 11). -/
def State.withFetchWord (s : State) (nbits w : Nat) : State := placeWord (tableWord nbits w) s

end Sys2Proof.Machine
end

