-- ==== Sys2Proof/Machine/HostOps.lean ====
section
/-! DEFINITION. The host's operations on the machine other than step (70_reset_and_hazards.md R202). Each is one
function of the state, applied wholly between two steps (00_scope.md R6). -/

namespace Sys2Proof.Machine

/-- One less, and zero stays zero (60_exceptions.md R181). -/
def countDown (t : Byte) : Byte := if t = 0 then 0 else t - 1

/-- `tickTimers()`: both timers count down; the result is `sound_stopped` (60_exceptions.md R181, R182). DESIGN CHOICE
of the spec: the result (D14), safe: log entry 12. -/
def tickTimers (s : State) : State × Bool := (setSt (countDown s.st) (setDt (countDown s.dt) s), s.st = 1)

/-- `setPressed(index, value)`; an index above 15 is outside the contract (60_exceptions.md R185, D19). DESIGN CHOICE
of the spec (D19), safe: log entry 10. -/
def setPressed (index : Nat) (value : Bool) (s : State) : Answer :=
  if h : index < Config.nKeys then .next (setKey (s.key.set index value h) s) else .refused .keyIndexOutOfContract

/-- `setByteOrder(mode)` (20_memory.md R56). -/
def setByteOrder (mode : ByteOrder) (s : State) : State := setBo mode s

/-- `writeBlock(data, address)`; a range that does not fit is outside the contract (20_memory.md R66, D19). DESIGN
CHOICE of the spec (D19), safe: log entry 10. -/
def writeBlock (data : List Byte) (address : Nat) (s : State) : Answer :=
  if WellFormed.blockFits data.length address then .next (writeBytes address data s) else .refused .blockOutOfContract

/-- `loadProgram(bytes)`: the block at 512 (70_reset_and_hazards.md R194). -/
def loadProgram (bytes : List Byte) (s : State) : Answer := writeBlock bytes Config.progStart s

/-- `snapshot()`: the 2048 cells, row-major (60_exceptions.md R186). DESIGN CHOICE of the spec: the host writes no
cell (D22): log entry 19. -/
def snapshot (s : State) : List Bool := s.disp.toList.flatMap (fun row => row.toList)

/-- `reset()`: the whole machine state to its reset value; the random source is outside the machine and is not reset
(70_reset_and_hazards.md R190, 10_state.md R32). -/
def hostReset (s : State) : State := setDraws s.draws State.reset

end Sys2Proof.Machine
end

