-- ==== Sys2Proof/Machine/Session.lean ====
section
/-! DEFINITION. The host's interface as a whole: its seven operations on a running machine, and what remains of them
after a fatal condition (70_reset_and_hazards.md R202, 60_exceptions.md R177). The core stores no faulted bit
(10_state.md R31): that the run is over is kept here. -/

namespace Sys2Proof.Machine

/-- The host's operations (70_reset_and_hazards.md R202). -/
inductive HostCall where
  | reset
  | setByteOrder (mode : ByteOrder)
  | loadProgram (bytes : List Byte)
  | step
  | tickTimers
  | setPressed (index : Nat) (value : Bool)
  | snapshot
  deriving DecidableEq, Repr

/-- What an operation returns (70_reset_and_hazards.md R202). -/
inductive Reply where
  /-- Nothing, or `Ok`. -/
  | done
  /-- `Fatal(code, op, a)` (60_exceptions.md R173). -/
  | fatal (code : Nat) (op addr : Word)
  /-- The result of a tick (60_exceptions.md R182). -/
  | soundStopped (event : Bool)
  /-- The result of a snapshot (60_exceptions.md R186). -/
  | cells (all : List Bool)
  deriving DecidableEq, Repr

/-- A machine in the host's hands: running, or left by a fatal condition. -/
inductive Session where
  | running (s : State)
  | over (s : State)
  deriving DecidableEq, Repr

/-- The machine state a session holds, running or over. -/
def Session.state : Session → State
  | .running s => s
  | .over s => s

/-- What a call of a host operation answers. -/
abbrev CallAnswer := Host.Outcome (Session × Reply) Fault Refusal

/-- The machine runs on with the state an operation answered, and the reply is `done`. -/
def runsOn : Answer → CallAnswer
  | .next t => .next (.running t, .done)
  | .fault f => .fault f
  | .refused r => .refused r

/-- What the host sees of a step from `s`: a fatal condition comes with its diagnostic and leaves the state with `pc`
advanced; undefined behaviour leaves no state at all (60_exceptions.md R173, R174, R176). -/
def stepSeen (s : State) : Answer → CallAnswer
  | .next t => .next (.running t, .done)
  | .refused r => .refused r
  | .fault f =>
    match diagnostic f with
    | some (code, op, addr) => .next (.over (leftByFatal s), .fatal code op addr)
    | none => .fault f

/-- One host operation (70_reset_and_hazards.md R202). After a fatal condition only reset and snapshot are defined
(60_exceptions.md R177, D10). DESIGN CHOICE of the spec (D10, D15, D23): log entries 8 and 9. -/
def Session.call (c : HostCall) : Session → CallAnswer
  | .running s =>
    match c with
    | .reset => .next (.running (hostReset s), .done)
    | .setByteOrder mode => .next (.running (Machine.setByteOrder mode s), .done)
    | .loadProgram bytes => runsOn (Machine.loadProgram bytes s)
    | .step => stepSeen s (Machine.step s)
    | .tickTimers => .next (.running (Machine.tickTimers s).1, .soundStopped (Machine.tickTimers s).2)
    | .setPressed index value => runsOn (Machine.setPressed index value s)
    | .snapshot => .next (.running s, .cells (Machine.snapshot s))
  | .over s =>
    match c with
    | .reset => .next (.running (hostReset s), .done)
    | .snapshot => .next (.over s, .cells (Machine.snapshot s))
    | .setByteOrder _ => .refused .runIsOver
    | .loadProgram _ => .refused .runIsOver
    | .step => .refused .runIsOver
    | .tickTimers => .refused .runIsOver
    | .setPressed _ _ => .refused .runIsOver

/-- A sequence of host operations, any interleaving of them (00_scope.md R6); it stops at the first that has no
meaning. The last reply is given, `done` for none. -/
def Session.calls : List HostCall → Session → CallAnswer
  | [], m => .next (m, .done)
  | [c], m => m.call c
  | c :: cs, m =>
    match m.call c with
    | .next (m', _) => Session.calls cs m'
    | .fault f => .fault f
    | .refused r => .refused r

end Sys2Proof.Machine
end

