-- ==== Sys2Proof/Safety.lean ====
section
/-! DEFINITION. The words claims are made in: what a step leaves unchanged, the invariant, a safe run, a finished program, the spec's own
encoding formulas, and what a sprite covers. -/

namespace Sys2Proof.Machine

/-! What is left unchanged. -/

/-- The parts of the state (10_state.md), and the model's own count of random draws. -/
inductive Part where
  | regs | index | pc | stack | delay | sound | display | keys | memory | mode | draws
  deriving DecidableEq, Repr

/-- A part reads the same in both states: every register, every cell, every key, every byte of memory. -/
def keeps (s t : State) : Part → Prop
  | .regs => ∀ r, reg t r = reg s r
  | .index => t.i = s.i
  | .pc => t.pc = s.pc
  | .stack => t.stack = s.stack
  | .delay => t.dt = s.dt
  | .sound => t.st = s.st
  | .display => ∀ px py, cell t px py = cell s px py
  | .keys => ∀ k, keyFlag t k = keyFlag s k
  | .memory => ∀ a, readByte t a = readByte s a
  | .mode => t.bo = s.bo
  | .draws => t.draws = s.draws

/-- Every part but the listed ones is unchanged. -/
def KeepsAllBut (parts : List Part) (s t : State) : Prop := ∀ p, p ∉ parts → keeps s t p

/-- Every general register but the listed ones is unchanged. -/
def KeepsRegsBut (rs : List Reg) (s t : State) : Prop := ∀ r, r ∉ rs → reg t r = reg s r

/-- Every byte of memory outside the `count` addresses from `first` on is unchanged. -/
def KeepsMemoryOutside (first count : Nat) (s t : State) : Prop :=
  ∀ a, a < first ∨ first + count ≤ a → readByte t a = readByte s a

/-- The general registers an instruction may change: its destination, `VF` where it writes the flag, the block of
LD_REGS (10_state.md R34, 43_index_memory.md R145). -/
def destinations : Instr → List Reg
  | .nop => []
  | .cls => []
  | .ret => []
  | .jp _ => []
  | .call _ => []
  | .seImm _ _ => []
  | .sneImm _ _ => []
  | .seReg _ _ => []
  | .ldImm x _ => [x]
  | .addImm x _ => [x]
  | .ldReg x _ => [x]
  | .orReg x _ => [x]
  | .andReg x _ => [x]
  | .xorReg x _ => [x]
  | .addReg x _ => [x, 0xF#4]
  | .subReg x _ => [x, 0xF#4]
  | .shr x _ => [x, 0xF#4]
  | .subnReg x _ => [x, 0xF#4]
  | .shl x _ => [x, 0xF#4]
  | .sneReg _ _ => []
  | .ldI _ => []
  | .jpV0 _ => []
  | .rnd x _ => [x]
  | .drw _ _ _ => [0xF#4]
  | .skp _ => []
  | .sknp _ => []
  | .ldVxDt x => [x]
  | .ldVxK x => [x]
  | .ldDtVx _ => []
  | .ldStVx _ => []
  | .addI _ => []
  | .ldF _ => []
  | .ldB _ => []
  | .stRegs _ => []
  | .ldRegs x => (List.range (x.toNat + 1)).map (BitVec.ofNat 4)

/-! Checks and skips, by the rules' own conditions. -/

/-- The one check an instruction makes, and the fault it ends with when the check fails (60_exceptions.md R175); `s.pc`
is the fetch address plus 2. The 27 instructions that check nothing have none. -/
def failedCheck : Instr → State → Option Fault
  | .ret, s => if s.stack = [] then some (.stackUnderflow 0x00EE#16 (s.pc - 2)) else none
  | .call _, s => if stackFull stackCapacity s then some .stackOverflow else none
  | .drw _ _ n, s => if 0 < n.toNat ∧ 4095 < s.i.toNat + n.toNat - 1 then some .memRange else none
  | .ldB _, s => if 4095 < s.i.toNat + 2 then some .memRange else none
  | .stRegs x, s => if 4095 < s.i.toNat + x.toNat then some .memRange else none
  | .ldRegs x, s => if 4095 < s.i.toNat + x.toNat then some .memRange else none
  | .skp x, s => if 15 < (reg s x).toNat then some .keyRange else none
  | .sknp x, s => if 15 < (reg s x).toNat then some .keyRange else none
  | _, _ => none

/-- Whether key number `k` is pressed; no key above 15 is (10_state.md R28). -/
def pressed (s : State) (k : Nat) : Prop := ∃ h : k < 16, keyFlag s ⟨k, h⟩ = true

/-- The condition of a conditional skip (41_skip.md, 45_keys_timers.md R160, R161); none for another instruction, and
none for a key index above 15. -/
def skipCondition : Instr → State → Option Prop
  | .seImm x nn, s => some (reg s x = nn)
  | .sneImm x nn, s => some (reg s x ≠ nn)
  | .seReg x y, s => some (reg s x = reg s y)
  | .sneReg x y, s => some (reg s x ≠ reg s y)
  | .skp x, s => if (reg s x).toNat ≤ 15 then some (pressed s (reg s x).toNat) else none
  | .sknp x, s => if (reg s x).toNat ≤ 15 then some (¬ pressed s (reg s x).toNat) else none
  | _, _ => none

/-! Runs. -/

/-- The value ranges of 10_state.md R35 that the types do not give, and the memory's canonical form. -/
def Invariant (s : State) : Prop :=
  s.mem.wf ∧ s.pc.toNat ≤ 0x10FE ∧ ∀ a ∈ s.stack, 2 ≤ a.toNat ∧ a.toNat ≤ 4096

/-- A safe run: `k` steps, none of them fatal or undefined (00_scope.md R16, well-formed program). -/
def SafeRun (k : Nat) (s : State) : Prop := ∃ t, Sys2Proof.core.run k s = .next t

/-! The end of a run (70_reset_and_hazards.md R201). The machine never stops of itself, so that a program has finished is a
predicate on the state. -/

/-- A fixed point of the step at a named address: another step changes nothing. -/
def FixedAt (a : Word) (s : State) : Prop := s.pc = a ∧ step s = .next s

/-- THE PROGRAM HAS FINISHED at the address `a`: a fixed point there, whatever keys the host reports, as `JP self` is
(R201, 92_eei_decisions.md D21). DESIGN CHOICE, safe (log entry 20): a wait for a key is a fixed point only while no key
is pressed, and is not finished (93_implementation_defined.md U16). -/
def FinishedAt (a : Word) (s : State) : Prop := ∀ keys, FixedAt a (setKey keys s)

/-- The machine alone comes to have finished at `a`, after `k` steps. -/
def FinishesAt (a : Word) (k : Nat) (s : State) : Prop := ∃ t, Sys2Proof.core.run k s = .next t ∧ FinishedAt a t

/-- The program comes to have finished at `a` under a schedule of host operations, steps among them. -/
def FinishesUnder (schedule : List HostCall) (a : Word) (s : State) : Prop :=
  ∃ t r, Session.calls schedule (.running s) = .next (.running t, r) ∧ FinishedAt a t

/-! Lists of instructions. -/

/-- Execute the instructions of a list in order, each on the state the one before it gives. -/
def execAll : List Instr → State → Answer
  | [], s => .next s
  | i :: is, s =>
    match exec i s with
    | .next t => execAll is t
    | .fault f => .fault f
    | .refused r => .refused r

/-- Apply a function to the state of a next outcome. -/
def mapNext (f : State → State) : Answer → Answer
  | .next t => .next (f t)
  | .fault r => .fault r
  | .refused r => .refused r

/-! Stores. -/

/-- The bytes an instruction stores from `I` on, by the rules: the digits of LD_B, the registers of ST_REGS, and none by
any other (43_index_memory.md R143, R144). -/
def storedBytes : Instr → State → List Byte
  | .ldB x, s => [BitVec.ofNat 8 ((reg s x).toNat / 100), BitVec.ofNat 8 ((reg s x).toNat / 10 % 10),
      BitVec.ofNat 8 ((reg s x).toNat % 10)]
  | .stRegs x, s => (List.range (x.toNat + 1)).map (fun k => reg s (BitVec.ofNat 4 k))
  | _, _ => []

/-- What an address holds after an instruction: the byte stored there, or what it held before. -/
def afterStore (i : Instr) (s : State) (a : Nat) : Byte :=
  if s.i.toNat ≤ a then ((storedBytes i s)[a - s.i.toNat]?).getD (readByte s a) else readByte s a

/-! The encoding formulas of 30_encoding.md R86. -/

/-- `match OR nnn`. -/
def wordA (fixed : Word) (nnn : Addr12) : Word := fixed ||| nnn.setWidth 16

/-- `match OR (x << 8) OR nn`. -/
def wordXI (fixed : Word) (x : Reg) (nn : Byte) : Word := fixed ||| x.setWidth 16 <<< 8 ||| nn.setWidth 16

/-- `match OR (x << 8) OR (y << 4) OR n`, `n` being 0 where the low nibble is in `match`. -/
def wordXYN (fixed : Word) (x y : Reg) (n : Nibble) : Word :=
  fixed ||| x.setWidth 16 <<< 8 ||| y.setWidth 16 <<< 4 ||| n.setWidth 16

/-- `match OR (x << 8)`. -/
def wordXF (fixed : Word) (x : Reg) : Word := fixed ||| x.setWidth 16 <<< 8

/-! The display. -/

/-- The sprite of `n` rows at `I`, drawn at `(V[x], V[y])`, has a set bit for the cell `(px, py)`
(44_display.md R151, R152). -/
def SpriteCovers (s : State) (x y : Reg) (n : Nibble) (px : Fin Config.dispW) (py : Fin Config.dispH) : Prop :=
  ∃ row < n.toNat, ∃ col < 8, (readByte s (s.i.toNat + row)).getLsbD (7 - col) = true ∧
    px.1 = ((reg s x).toNat + col) % 64 ∧ py.1 = ((reg s y).toNat + row) % 32

end Sys2Proof.Machine
end

