-- ==== Sys2Proof/Certificates/Slice0/Obligations.lean ====
section
/-! DEFINITION. The statements for the provers (OBLIGATIONS.json): each the formal reading of the numbered rules its docstring
names, or derived from the sections it names.

A statement about `exec` is about the state whose `pc` already holds the fetch address plus 2 (30_encoding.md R81). A frame
is `KeepsAllBut`: every part of the state not named reads as before, every register, cell, key and byte of memory. -/

open Sys2Proof Sys2Proof.Machine

/-! Control transfer (40_control.md). -/

/-- 40_control.md R100. -/
def Obligations.NopOnlyAdvancesPc : Prop :=
  decode 0x0000#16 = some .nop ∧
  (∀ nnn : Addr12, nnn ≠ 0x000#12 → nnn ≠ 0x0E0#12 → nnn ≠ 0x0EE#12 → decode (wordA 0x0000#16 nnn) = none) ∧
  (∀ s, exec .nop s = .next s) ∧
  (∀ s, fetch s = some 0x0000#16 → ∃ t, step s = .next t ∧ t.pc = s.pc + 2 ∧ KeepsAllBut [.pc] s t)

/-- 40_control.md R101: RET pops into `pc`, and on an empty stack is the fatal condition, which leaves `pc` at `a + 2`
(its code 2 is the spec's decision D9, log entry 8). -/
def Obligations.ReturnPopsIntoPc : Prop :=
  decode 0x00EE#16 = some .ret ∧
  (∀ s top rest, s.stack = top :: rest →
    ∃ t, exec .ret s = .next t ∧ t.pc = top ∧ t.stack = rest ∧ KeepsAllBut [.pc, .stack] s t) ∧
  (∀ s, s.stack = [] → exec .ret s = .fault (.stackUnderflow 0x00EE#16 (s.pc - 2))) ∧
  (∀ s, fetch s = some 0x00EE#16 → s.stack = [] →
    ∃ t, Session.call .step (.running s) = .next (.over t, .fatal 2 0x00EE#16 s.pc) ∧ t.pc = s.pc + 2 ∧ t.stack = [] ∧
      KeepsAllBut [.pc] s t)

/-- 40_control.md R102, with the endless loop and the unusable target 4095. -/
def Obligations.JumpIsAbsolute : Prop :=
  ∀ nnn : Addr12,
    decode (wordA 0x1000#16 nnn) = some (.jp nnn) ∧
    (∀ s, ∃ t, exec (.jp nnn) s = .next t ∧ t.pc.toNat = nnn.toNat ∧ KeepsAllBut [.pc] s t) ∧
    (∀ s, fetch s = some (wordA 0x1000#16 nnn) → s.pc = nnn.setWidth 16 → step s = .next s) ∧
    (∀ s t, nnn = 0xFFF#12 → exec (.jp nnn) s = .next t → step t = .fault .memRange)

/-- 40_control.md R103 with the default `STACK_CAPACITY`, unbounded (log entry 2); a finite one is
`FiniteStackOverflows`. -/
def Obligations.CallPushesReturnAddress : Prop :=
  ∀ nnn : Addr12,
    decode (wordA 0x2000#16 nnn) = some (.call nnn) ∧
    (∀ s, ∃ t, exec (.call nnn) s = .next t ∧ t.stack = s.pc :: s.stack ∧ t.pc.toNat = nnn.toNat ∧
      KeepsAllBut [.pc, .stack] s t) ∧
    (∀ s, fetch s = some (wordA 0x2000#16 nnn) →
      ∃ t, step s = .next t ∧ t.stack = (s.pc + 2) :: s.stack ∧ t.pc.toNat = nnn.toNat ∧ KeepsAllBut [.pc, .stack] s t)

/-- The finite case of 40_control.md R103, the spec's own decision D8 (log entry 2): a CALL at full depth is
`Undefined(StackOverflow)`, below it the CALL of the default. -/
def Obligations.FiniteStackOverflows : Prop :=
  ∀ (n : Nat) (nnn : Addr12) (s : State),
    (s.stack.length = n → callWithin (some n) nnn s = .fault .stackOverflow) ∧
    (s.stack.length < n → callWithin (some n) nnn s = callWithin none nnn s)

/-- 40_control.md R104: the sum is exact, and above 4094 the next fetch is undefined. -/
def Obligations.JumpPlusV0 : Prop :=
  ∀ nnn : Addr12,
    decode (wordA 0xB000#16 nnn) = some (.jpV0 nnn) ∧
    (∀ s, ∃ t, exec (.jpV0 nnn) s = .next t ∧ t.pc.toNat = (reg s 0).toNat + nnn.toNat ∧ KeepsAllBut [.pc] s t) ∧
    (∀ s t, 4094 < (reg s 0).toNat + nnn.toNat → exec (.jpV0 nnn) s = .next t → step t = .fault .memRange)

/-- The property quoted in 40_control.md R101: N nested calls and N returns restore the machine, with the default,
unbounded `STACK_CAPACITY` (decision D8, log entry 2: nests of every depth complete). `execAll` runs the meanings alone:
no fetch advances `pc` between them. -/
def Obligations.NestedCallsReturn : Prop :=
  ∀ (targets : List Addr12) (s : State),
    execAll (targets.map .call ++ List.replicate targets.length .ret) s = .next s

/-! Skips (41_skip.md). -/

/-- 41_skip.md R110, R111, and that exactly one of the two skips. -/
def Obligations.SkipsOnImmediate : Prop :=
  ∀ (x : Reg) (nn : Byte),
    decode (wordXI 0x3000#16 x nn) = some (.seImm x nn) ∧ decode (wordXI 0x4000#16 x nn) = some (.sneImm x nn) ∧
    ∀ s, ∃ t u, exec (.seImm x nn) s = .next t ∧ exec (.sneImm x nn) s = .next u ∧
      t.pc = (if reg s x = nn then s.pc + 2 else s.pc) ∧ u.pc = (if reg s x = nn then s.pc else s.pc + 2) ∧
      KeepsAllBut [.pc] s t ∧ KeepsAllBut [.pc] s u

/-- 41_skip.md R112, R113. -/
def Obligations.SkipsOnRegisters : Prop :=
  ∀ (x y : Reg),
    decode (wordXYN 0x5000#16 x y 0) = some (.seReg x y) ∧ decode (wordXYN 0x9000#16 x y 0) = some (.sneReg x y) ∧
    (∀ n : Nibble, n ≠ 0 → decode (wordXYN 0x5000#16 x y n) = none ∧ decode (wordXYN 0x9000#16 x y n) = none) ∧
    ∀ s, ∃ t u, exec (.seReg x y) s = .next t ∧ exec (.sneReg x y) s = .next u ∧
      t.pc = (if reg s x = reg s y then s.pc + 2 else s.pc) ∧ u.pc = (if reg s x = reg s y then s.pc else s.pc + 2) ∧
      KeepsAllBut [.pc] s t ∧ KeepsAllBut [.pc] s u

/-- 41_skip.md R114: every conditional skip passes over one word whatever that word is, and at 4094 only the next fetch
fails. -/
def Obligations.SkipPassesOneWord : Prop :=
  ∀ (s : State) (op : Word) (i : Instr) (c : Prop),
    fetch s = some op → decode op = some i → skipCondition i s = some c →
      ∃ t, step s = .next t ∧ KeepsAllBut [.pc] s t ∧ (c → t.pc = s.pc + 4) ∧ (¬ c → t.pc = s.pc + 2) ∧
        (c → s.pc = 4094#16 → t.pc = 4098#16 ∧ step t = .fault .memRange)

/-! ALU and registers (42_alu.md). -/

/-- 42_alu.md R120, R122. -/
def Obligations.LoadsSetOneRegister : Prop :=
  ∀ (x y : Reg) (nn : Byte),
    decode (wordXI 0x6000#16 x nn) = some (.ldImm x nn) ∧ decode (wordXYN 0x8000#16 x y 0) = some (.ldReg x y) ∧
    ∀ s, ∃ t u, exec (.ldImm x nn) s = .next t ∧ exec (.ldReg x y) s = .next u ∧
      reg t x = nn ∧ reg u x = reg s y ∧
      KeepsRegsBut [x] s t ∧ KeepsRegsBut [x] s u ∧ KeepsAllBut [.regs] s t ∧ KeepsAllBut [.regs] s u

/-- 42_alu.md R121: the sum wraps, and no flag is touched. -/
def Obligations.AddImmediateWraps : Prop :=
  ∀ (x : Reg) (nn : Byte),
    decode (wordXI 0x7000#16 x nn) = some (.addImm x nn) ∧
    ∀ s, ∃ t, exec (.addImm x nn) s = .next t ∧ (reg t x).toNat = ((reg s x).toNat + nn.toNat) % 256 ∧
      KeepsRegsBut [x] s t ∧ KeepsAllBut [.regs] s t

/-- 42_alu.md R123, R124, R125: bit by bit, and no flag is touched. -/
def Obligations.LogicIsBitwise : Prop :=
  ∀ (x y : Reg),
    decode (wordXYN 0x8001#16 x y 0) = some (.orReg x y) ∧ decode (wordXYN 0x8002#16 x y 0) = some (.andReg x y) ∧
    decode (wordXYN 0x8003#16 x y 0) = some (.xorReg x y) ∧
    ∀ s, ∃ t u w, exec (.orReg x y) s = .next t ∧ exec (.andReg x y) s = .next u ∧ exec (.xorReg x y) s = .next w ∧
      (∀ k, (reg t x).getLsbD k = ((reg s x).getLsbD k || (reg s y).getLsbD k)) ∧
      (∀ k, (reg u x).getLsbD k = ((reg s x).getLsbD k && (reg s y).getLsbD k)) ∧
      (∀ k, (reg w x).getLsbD k = ((reg s x).getLsbD k ^^ (reg s y).getLsbD k)) ∧
      KeepsRegsBut [x] s t ∧ KeepsRegsBut [x] s u ∧ KeepsRegsBut [x] s w ∧
      KeepsAllBut [.regs] s t ∧ KeepsAllBut [.regs] s u ∧ KeepsAllBut [.regs] s w

/-- 42_alu.md R126: the sum and the carry; with `x = F` the flag wins, being written last (the order of the two writes is
the spec's decision D2, log entry 5). -/
def Obligations.AddSetsCarry : Prop :=
  ∀ (x y : Reg),
    decode (wordXYN 0x8004#16 x y 0) = some (.addReg x y) ∧
    ∀ s, ∃ t, exec (.addReg x y) s = .next t ∧
      (x ≠ 0xF#4 → (reg t x).toNat = ((reg s x).toNat + (reg s y).toNat) % 256) ∧
      reg t 0xF#4 = (if (reg s x).toNat + (reg s y).toNat > 255 then 1 else 0) ∧
      KeepsRegsBut [x, 0xF#4] s t ∧ KeepsAllBut [.regs] s t

/-- 42_alu.md R127, R129: the difference and NOT borrow; with `x = F` the flag wins, being written last (decision D2, log
entry 5). -/
def Obligations.SubtractionsSetNoBorrow : Prop :=
  ∀ (x y : Reg),
    decode (wordXYN 0x8005#16 x y 0) = some (.subReg x y) ∧ decode (wordXYN 0x8007#16 x y 0) = some (.subnReg x y) ∧
    ∀ s, ∃ t u, exec (.subReg x y) s = .next t ∧ exec (.subnReg x y) s = .next u ∧
      (x ≠ 0xF#4 → reg t x = reg s x - reg s y) ∧ (x ≠ 0xF#4 → reg u x = reg s y - reg s x) ∧
      reg t 0xF#4 = (if (reg s x).toNat < (reg s y).toNat then 0 else 1) ∧
      reg u 0xF#4 = (if (reg s y).toNat < (reg s x).toNat then 0 else 1) ∧
      KeepsRegsBut [x, 0xF#4] s t ∧ KeepsRegsBut [x, 0xF#4] s u ∧ KeepsAllBut [.regs] s t ∧ KeepsAllBut [.regs] s u

/-- 42_alu.md R128, R130: the shifted value and the bit shifted out, for every `y`; with `x = F` the shift acts on the
flag just written (decision D2, log entry 5). -/
def Obligations.ShiftsByOneKeepDroppedBit : Prop :=
  ∀ (x y : Reg),
    decode (wordXYN 0x8006#16 x y 0) = some (.shr x y) ∧ decode (wordXYN 0x800E#16 x y 0) = some (.shl x y) ∧
    ∀ s, ∃ t u, exec (.shr x y) s = .next t ∧ exec (.shl x y) s = .next u ∧
      (x ≠ 0xF#4 → (reg t x).toNat = (reg s x).toNat / 2 ∧ (reg t 0xF#4).toNat = (reg s x).toNat % 2) ∧
      (x ≠ 0xF#4 → (reg u x).toNat = (reg s x).toNat * 2 % 256 ∧ (reg u 0xF#4).toNat = (reg s x).toNat / 128) ∧
      (x = 0xF#4 → (reg t 0xF#4).toNat = 0 ∧ (reg u 0xF#4).toNat = 2 * ((reg s x).toNat / 128)) ∧
      KeepsRegsBut [x, 0xF#4] s t ∧ KeepsRegsBut [x, 0xF#4] s u ∧ KeepsAllBut [.regs] s t ∧ KeepsAllBut [.regs] s u

/-- Which of the two writes wins when `x` is `F`, and what `x = y` gives: the spec's own reading (decision D2, log
entry 5; 42_alu.md section 1, the paragraphs on the order of the two writes and on `x = y`, the latter derived there). -/
def Obligations.FlagRegisterAsDestination : Prop :=
  ∀ (y : Reg) (s : State),
    (∃ t, exec (.addReg 0xF#4 y) s = .next t ∧
      reg t 0xF#4 = (if (reg s 0xF#4).toNat + (reg s y).toNat > 255 then 1 else 0)) ∧
    (∃ t, exec (.subReg 0xF#4 y) s = .next t ∧
      reg t 0xF#4 = (if (reg s 0xF#4).toNat < (reg s y).toNat then 0 else 1)) ∧
    (∃ t, exec (.subnReg 0xF#4 y) s = .next t ∧
      reg t 0xF#4 = (if (reg s y).toNat < (reg s 0xF#4).toNat then 0 else 1)) ∧
    (∃ t, exec (.shr 0xF#4 y) s = .next t ∧ reg t 0xF#4 = 0) ∧
    (∃ t, exec (.shl 0xF#4 y) s = .next t ∧ reg t 0xF#4 = (if 128 ≤ (reg s 0xF#4).toNat then 2 else 0)) ∧
    (∃ t, exec (.xorReg y y) s = .next t ∧ reg t y = 0) ∧
    (∃ t, exec (.orReg y y) s = .next t ∧ ∀ r, reg t r = reg s r) ∧
    (∃ t, exec (.andReg y y) s = .next t ∧ ∀ r, reg t r = reg s r) ∧
    (∃ t, exec (.addReg y y) s = .next t ∧ reg t 0xF#4 = (if 128 ≤ (reg s y).toNat then 1 else 0) ∧
      (y ≠ 0xF#4 → (reg t y).toNat = 2 * (reg s y).toNat % 256)) ∧
    (∃ t, exec (.subReg y y) s = .next t ∧ reg t 0xF#4 = 1 ∧ (y ≠ 0xF#4 → reg t y = 0)) ∧
    (∃ t, exec (.subnReg y y) s = .next t ∧ reg t 0xF#4 = 1 ∧ (y ≠ 0xF#4 → reg t y = 0))

/-- 42_alu.md R131, for every byte the free value can be: one byte is drawn, and by no other instruction. -/
def Obligations.RandomByteIsMasked : Prop :=
  (∀ (x : Reg) (nn : Byte),
    decode (wordXI 0xC000#16 x nn) = some (.rnd x nn) ∧
    ∀ s, ∃ t, exec (.rnd x nn) s = .next t ∧ reg t x = Config.randomByte s.draws &&& nn ∧ reg t x &&& ~~~nn = 0 ∧
      t.draws = s.draws + 1 ∧ KeepsRegsBut [x] s t ∧ KeepsAllBut [.regs, .draws] s t) ∧
  (∀ (i : Instr) (s t : State), (∀ x nn, i ≠ .rnd x nn) → exec i s = .next t → t.draws = s.draws)

/-! Index register and memory (43_index_memory.md). -/

/-- 43_index_memory.md R140, R142. -/
def Obligations.LoadsOfIndex : Prop :=
  ∀ (x : Reg) (nnn : Addr12),
    decode (wordA 0xA000#16 nnn) = some (.ldI nnn) ∧ decode (wordXF 0xF029#16 x) = some (.ldF x) ∧
    ∀ s, ∃ t u, exec (.ldI nnn) s = .next t ∧ exec (.ldF x) s = .next u ∧
      t.i.toNat = nnn.toNat ∧ u.i.toNat = (reg s x).toNat * 5 ∧ KeepsAllBut [.index] s t ∧ KeepsAllBut [.index] s u

/-- 43_index_memory.md R141 where the 16-bit sum does not overflow; the overflow is `IndexSumWraps`. -/
def Obligations.AddToIndex : Prop :=
  ∀ x : Reg,
    decode (wordXF 0xF01E#16 x) = some (.addI x) ∧
    ∀ s, ∃ t, exec (.addI x) s = .next t ∧ KeepsAllBut [.index] s t ∧
      (s.i.toNat + (reg s x).toNat < 65536 → t.i.toNat = s.i.toNat + (reg s x).toNat)

/-- The overflow of `I` in ADD_I, the spec's own decision D6 (log entry 6): modulo 2^16, `VF` untouched. -/
def Obligations.IndexSumWraps : Prop :=
  ∀ (x : Reg) (s : State), 65536 ≤ s.i.toNat + (reg s x).toNat →
    ∃ t, exec (.addI x) s = .next t ∧ t.i.toNat = s.i.toNat + (reg s x).toNat - 65536 ∧ reg t 0xF#4 = reg s 0xF#4

/-- 43_index_memory.md R143: the three digits at `I`, `I + 1`, `I + 2`, nothing else written; beyond memory the step is
`Undefined(MemRange)` (log entry 4). -/
def Obligations.DecimalDigitsAreStored : Prop :=
  ∀ x : Reg,
    decode (wordXF 0xF033#16 x) = some (.ldB x) ∧
    (∀ s, 4095 < s.i.toNat + 2 → exec (.ldB x) s = .fault .memRange) ∧
    (∀ s, s.i.toNat + 2 ≤ 4095 → ∃ t, exec (.ldB x) s = .next t ∧
      (readByte t s.i.toNat).toNat = (reg s x).toNat / 100 ∧
      (readByte t (s.i.toNat + 1)).toNat = (reg s x).toNat / 10 % 10 ∧
      (readByte t (s.i.toNat + 2)).toNat = (reg s x).toNat % 10 ∧
      KeepsMemoryOutside s.i.toNat 3 s t ∧ KeepsAllBut [.memory] s t)

/-- 43_index_memory.md R144: `V[k]` at `I + k`, nothing else written; beyond memory `Undefined(MemRange)` (log
entry 4). -/
def Obligations.RegistersAreStored : Prop :=
  ∀ x : Reg,
    decode (wordXF 0xF055#16 x) = some (.stRegs x) ∧
    (∀ s, 4095 < s.i.toNat + x.toNat → exec (.stRegs x) s = .fault .memRange) ∧
    (∀ s, s.i.toNat + x.toNat ≤ 4095 → ∃ t, exec (.stRegs x) s = .next t ∧
      (∀ k : Reg, k.toNat ≤ x.toNat → readByte t (s.i.toNat + k.toNat) = reg s k) ∧
      KeepsMemoryOutside s.i.toNat (x.toNat + 1) s t ∧ KeepsAllBut [.memory] s t)

/-- 43_index_memory.md R145: `V[k]` from `I + k`, no register above `x`; beyond memory `Undefined(MemRange)` (log
entry 4); a store and a load of the same block restore the registers. -/
def Obligations.RegistersAreLoaded : Prop :=
  ∀ x : Reg,
    decode (wordXF 0xF065#16 x) = some (.ldRegs x) ∧
    (∀ s, 4095 < s.i.toNat + x.toNat → exec (.ldRegs x) s = .fault .memRange) ∧
    (∀ s, s.i.toNat + x.toNat ≤ 4095 → ∃ t, exec (.ldRegs x) s = .next t ∧
      (∀ k : Reg, k.toNat ≤ x.toNat → reg t k = readByte s (s.i.toNat + k.toNat)) ∧
      (∀ k : Reg, x.toNat < k.toNat → reg t k = reg s k) ∧ KeepsAllBut [.regs] s t) ∧
    (∀ s t u w, s.i.toNat + x.toNat ≤ 4095 → exec (.stRegs x) s = .next t → u.i = t.i →
      (∀ a, readByte u a = readByte t a) → exec (.ldRegs x) u = .next w →
      ∀ k : Reg, k.toNat ≤ x.toNat → reg w k = reg s k)

/-- Stored bytes are what a later fetch of them reads, with nothing in between (derived in 20_memory.md section 3,
instruction-fetch coherence): two registers stored by ST_REGS, two digits stored by LD_B, and, for every instruction, any
fetch after it, which may take one stored byte and one that was there before. -/
def Obligations.FetchSeesStoredBytes : Prop :=
  (∀ (x k j : Reg) (s t : State), j.toNat = k.toNat + 1 → j.toNat ≤ x.toNat → exec (.stRegs x) s = .next t →
    ∀ u, u.pc.toNat = s.i.toNat + k.toNat → u.mem = t.mem → fetch u = some (joinBytes u.bo (reg s k) (reg s j))) ∧
  (∀ (x : Reg) (s t : State), exec (.ldB x) s = .next t → ∀ u, u.mem = t.mem →
    (u.pc.toNat = s.i.toNat → fetch u = some (joinBytes u.bo (BitVec.ofNat 8 ((reg s x).toNat / 100))
      (BitVec.ofNat 8 ((reg s x).toNat / 10 % 10)))) ∧
    (u.pc.toNat = s.i.toNat + 1 → fetch u = some (joinBytes u.bo (BitVec.ofNat 8 ((reg s x).toNat / 10 % 10))
      (BitVec.ofNat 8 ((reg s x).toNat % 10))))) ∧
  (∀ (i : Instr) (s t : State), exec i s = .next t → ∀ u, u.mem = t.mem → u.pc.toNat ≤ 4094 →
    fetch u = some (joinBytes u.bo (afterStore i s u.pc.toNat) (afterStore i s (u.pc.toNat + 1))))

/-! Display (44_display.md). -/

/-- 44_display.md R150. -/
def Obligations.ClearTurnsEveryCellOff : Prop :=
  decode 0x00E0#16 = some .cls ∧
  ∀ s, ∃ t, exec .cls s = .next t ∧ (∀ px py, cell t px py = false) ∧ KeepsAllBut [.display] s t

/-- 44_display.md R151, R152: exactly the cells the sprite covers are toggled, `VF` tells whether one of them was on, all
coordinates being read before (also with `x` or `y` = F, decision D3, log entry 5). -/
def Obligations.DrawTogglesTheSprite : Prop :=
  ∀ (x y : Reg) (n : Nibble),
    decode (wordXYN 0xD000#16 x y n) = some (.drw x y n) ∧
    (∀ s, 0 < n.toNat → 4095 < s.i.toNat + n.toNat - 1 → exec (.drw x y n) s = .fault .memRange) ∧
    (∀ s, n.toNat = 0 ∨ s.i.toNat + n.toNat - 1 ≤ 4095 → ∃ t, exec (.drw x y n) s = .next t ∧
      (∀ px py, SpriteCovers s x y n px py → cell t px py = !cell s px py) ∧
      (∀ px py, ¬ SpriteCovers s x y n px py → cell t px py = cell s px py) ∧
      ((∃ px py, SpriteCovers s x y n px py ∧ cell s px py = true) → reg t 0xF#4 = 1) ∧
      ((¬ ∃ px py, SpriteCovers s x y n px py ∧ cell s px py = true) → reg t 0xF#4 = 0) ∧
      KeepsRegsBut [0xF#4] s t ∧ KeepsAllBut [.regs, .display] s t)

/-- Drawing twice restores the display, and the second flag is 1 exactly when the first draw turned a cell on (derived in
44_display.md section on the double draw, from its rules on DRW). -/
def Obligations.DoubleDrawRestores : Prop :=
  ∀ (x y : Reg) (n : Nibble) (s : State), x ≠ 0xF#4 → y ≠ 0xF#4 → n.toNat = 0 ∨ s.i.toNat + n.toNat - 1 ≤ 4095 →
    ∃ t, execAll [.drw x y n, .drw x y n] s = .next t ∧ t.disp = s.disp ∧
      (reg t 0xF#4 = 1 ↔ ∃ px py, SpriteCovers s x y n px py ∧ cell s px py = false) ∧
      KeepsRegsBut [0xF#4] s t ∧ KeepsAllBut [.regs] s t

/-! Keys and timers (45_keys_timers.md). -/

/-- 45_keys_timers.md R160, R161; a value above 15 selects no key (decision D5, log entry 4). -/
def Obligations.SkipsOnKey : Prop :=
  ∀ x : Reg,
    decode (wordXF 0xE09E#16 x) = some (.skp x) ∧ decode (wordXF 0xE0A1#16 x) = some (.sknp x) ∧
    (∀ s, 15 < (reg s x).toNat → exec (.skp x) s = .fault .keyRange ∧ exec (.sknp x) s = .fault .keyRange) ∧
    (∀ s (k : Fin 16), (reg s x).toNat = k.1 → ∃ t u, exec (.skp x) s = .next t ∧ exec (.sknp x) s = .next u ∧
      t.pc = (if keyFlag s k = true then s.pc + 2 else s.pc) ∧
      u.pc = (if keyFlag s k = true then s.pc else s.pc + 2) ∧ KeepsAllBut [.pc] s t ∧ KeepsAllBut [.pc] s u)

/-- 45_keys_timers.md R163: the least pressed key, or, with none pressed, a step that changes nothing at all. -/
def Obligations.WaitForKey : Prop :=
  ∀ x : Reg,
    decode (wordXF 0xF00A#16 x) = some (.ldVxK x) ∧
    (∀ s (k : Fin 16), keyFlag s k = true → (∀ j : Fin 16, j.1 < k.1 → keyFlag s j = false) →
      ∃ t, exec (.ldVxK x) s = .next t ∧ (reg t x).toNat = k.1 ∧ KeepsRegsBut [x] s t ∧ KeepsAllBut [.regs] s t) ∧
    (∀ s, (∀ j, keyFlag s j = false) →
      ∃ t, exec (.ldVxK x) s = .next t ∧ t.pc = s.pc - 2 ∧ KeepsAllBut [.pc] s t) ∧
    (∀ s, fetch s = some (wordXF 0xF00A#16 x) → (∀ j, keyFlag s j = false) → step s = .next s)

/-- 45_keys_timers.md R162, R164, R165. -/
def Obligations.TimerMoves : Prop :=
  ∀ x : Reg,
    decode (wordXF 0xF007#16 x) = some (.ldVxDt x) ∧ decode (wordXF 0xF015#16 x) = some (.ldDtVx x) ∧
    decode (wordXF 0xF018#16 x) = some (.ldStVx x) ∧
    ∀ s, ∃ t u w, exec (.ldVxDt x) s = .next t ∧ exec (.ldDtVx x) s = .next u ∧ exec (.ldStVx x) s = .next w ∧
      reg t x = s.dt ∧ KeepsRegsBut [x] s t ∧ KeepsAllBut [.regs] s t ∧
      u.dt = reg s x ∧ KeepsAllBut [.delay] s u ∧ w.st = reg s x ∧ KeepsAllBut [.sound] s w

/-! The step, the decoder, the fatal conditions (30_encoding.md, 60_exceptions.md). -/

/-- 30_encoding.md R81: the step is the fetch, the advance of `pc`, the decoding, and the instruction (that a fetch beyond
memory has no value is decision D4, log entry 4). -/
def Obligations.StepRunsTheDecodedInstruction : Prop :=
  (∀ s, 4094 < s.pc.toNat → step s = .fault .memRange) ∧
  (∀ s, s.pc.toNat ≤ 4094 →
    fetch s = some (joinBytes s.bo (readByte s s.pc.toNat) (readByte s (s.pc.toNat + 1)))) ∧
  (∀ s op, fetch s = some op → decode op = none → step s = .fault (.unimplementedOpcode op s.pc)) ∧
  (∀ s op i, fetch s = some op → decode op = some i → step s = exec i { s with pc := s.pc + 2 })

/-- Words written out from the encodings of 30_encoding.md section 2 decode to the instructions they stand for. -/
def Obligations.SampleWordsDecode : Prop :=
  decode 0b0000000011100000#16 = some .cls ∧ decode 0b0010101010111100#16 = some (.call 0xABC#12) ∧
  decode 0b0101101010110000#16 = some (.seReg 0xA#4 0xB#4) ∧ decode 0b1000001101000100#16 = some (.addReg 3#4 4#4) ∧
  decode 0b1000010011111110#16 = some (.shl 4#4 0xF#4) ∧ decode 0b1010001011110000#16 = some (.ldI 0x2F0#12) ∧
  decode 0b1101000100100101#16 = some (.drw 1#4 2#4 5#4) ∧ decode 0b1110000110011110#16 = some (.skp 1#4) ∧
  decode 0b1111010100001010#16 = some (.ldVxK 5#4) ∧ decode 0b1111001001010101#16 = some (.stRegs 2#4)

/-- 60_exceptions.md R171, R172: when a step is fatal, with what diagnostic, and what state it leaves (the codes 1 and 2
and that the diagnostic's address is the instruction's own are the spec's decision D9, log entry 8). -/
def Obligations.FatalConditionsArePrecise : Prop :=
  (∀ s op a, step s = .fault (.unimplementedOpcode op a) ↔
    fetch s = some op ∧ WellFormed.legalWord op = false ∧ a = s.pc) ∧
  (∀ s op a, step s = .fault (.stackUnderflow op a) ↔
    fetch s = some 0x00EE#16 ∧ s.stack = [] ∧ op = 0x00EE#16 ∧ a = s.pc) ∧
  (∀ s op, fetch s = some op → WellFormed.legalWord op = false →
    ∃ t, Session.call .step (.running s) = .next (.over t, .fatal 1 op s.pc) ∧ t.pc = s.pc + 2 ∧ KeepsAllBut [.pc] s t) ∧
  (∀ s, fetch s = some 0x00EE#16 → s.stack = [] →
    ∃ t, Session.call .step (.running s) = .next (.over t, .fatal 2 0x00EE#16 s.pc) ∧ t.pc = s.pc + 2 ∧
      KeepsAllBut [.pc] s t)

/-- After a fatal condition only reset and snapshot have a meaning: the spec's own decision D10 (log entry 8). -/
def Obligations.FatalEndsTheRun : Prop :=
  ∀ s : State,
    Session.call .reset (.over s) = .next (.running (hostReset s), .done) ∧
    Session.call .snapshot (.over s) = .next (.over s, .cells (snapshot s)) ∧
    ∀ c, c ≠ .reset → c ≠ .snapshot → Session.call c (.over s) = .refused .runIsOver

/-- 60_exceptions.md R175: the checks and their order, and that an instruction whose check does not fail completes, for
all 35 instructions; nothing is refused (the undefined outcomes are decisions D4 and D5, log entry 4). -/
def Obligations.ChecksAndTheirOrder : Prop :=
  (∀ s, fetch s = none → step s = .fault .memRange) ∧
  (∀ s op, fetch s = some op → decode op = none → step s = .fault (.unimplementedOpcode op s.pc)) ∧
  (∀ s op i f, fetch s = some op → decode op = some i → failedCheck i (advancePc s) = some f → step s = .fault f) ∧
  (∀ i s f, failedCheck i s = some f → exec i s = .fault f) ∧
  (∀ i s, failedCheck i s = none → ∃ t, exec i s = .next t)

/-- 20_memory.md R55: the two bytes joined by the byte order; R56: the order switches from the next fetch, and nothing
else changes; no instruction, and of the host operations only setByteOrder and reset, change it. What BIG means is the
reading of R55 (G7), both orders are modelled by decision D13 (log entry 13), and that no word is read above 4094 is
decision D4 (log entry 4). -/
def Obligations.FetchFollowsByteOrder : Prop :=
  (∀ s a, a + 1 ≤ 4095 → s.bo = .big → readWord s a = some (readByte s a ++ readByte s (a + 1))) ∧
  (∀ s a, a + 1 ≤ 4095 → s.bo = .little → readWord s a = some (readByte s (a + 1) ++ readByte s a)) ∧
  (∀ s a, 4095 < a + 1 → readWord s a = none) ∧
  (∀ s, fetch s = readWord s s.pc.toNat) ∧
  (∀ mode s, Session.call (.setByteOrder mode) (.running s) = .next (.running (setByteOrder mode s), .done) ∧
    (setByteOrder mode s).bo = mode ∧ KeepsAllBut [.mode] s (setByteOrder mode s)) ∧
  (∀ i s t, exec i s = .next t → t.bo = s.bo) ∧
  (∀ c w w' r, c ≠ .reset → (∀ mode, c ≠ .setByteOrder mode) → Session.call c w = .next (w', r) →
    w'.state.bo = w.state.bo) ∧
  (∀ s, (hostReset s).bo = .big) ∧ State.reset.bo = .big

/-! The host's operations (60_exceptions.md, 70_reset_and_hazards.md). -/

/-- 60_exceptions.md R181: both timers count down to zero and stay there, and a tick changes nothing else (that
the result is a bit of the tick is decision D14, log entry 12). -/
def Obligations.TickCountsDown : Prop :=
  ∀ s, ∃ t e, Session.call .tickTimers (.running s) = .next (.running t, .soundStopped e) ∧
    t.dt.toNat = s.dt.toNat - 1 ∧ t.st.toNat = s.st.toNat - 1 ∧ e = decide (s.st = 1) ∧
    KeepsAllBut [.delay, .sound] s t

/-- The tick's result is true exactly when the tick takes `ST` from 1 to 0: the spec's own decision D14 (log entry 12);
no step is such an event. -/
def Obligations.SoundStopsFromOneToZero : Prop :=
  ∀ s, ((tickTimers s).2 = true ↔ s.st ≠ 0 ∧ (tickTimers s).1.st = 0) ∧
    ∀ m r, Session.call .step (.running s) = .next (m, r) → ∀ e, r ≠ .soundStopped e

/-- 60_exceptions.md R185 within the contract: one key flag is set to the value. -/
def Obligations.KeyPortSetsOneFlag : Prop :=
  ∀ (k : Fin 16) (b : Bool) (s : State), ∃ t, setPressed k.1 b s = .next t ∧ keyFlag t k = b ∧
    (∀ j, j ≠ k → keyFlag t j = keyFlag s j) ∧ KeepsAllBut [.keys] s t ∧
    Session.call (.setPressed k.1 b) (.running s) = .next (.running t, .done)

/-- 60_exceptions.md R186: 2048 cells in row-major order, and no state changes. -/
def Obligations.SnapshotIsRowMajor : Prop :=
  ∀ s, Session.call .snapshot (.running s) = .next (.running s, .cells (snapshot s)) ∧ (snapshot s).length = 2048 ∧
    ∀ (px : Fin 64) (py : Fin 32), (snapshot s)[py.1 * 64 + px.1]? = some (cell s px py)

/-- 70_reset_and_hazards.md R194 within the contract: the bytes from 512 on, and nothing else. -/
def Obligations.ProgramIsCopiedTo512 : Prop :=
  ∀ (bytes : List Byte) (s : State), bytes.length ≤ 3584 →
    ∃ t, Session.call (.loadProgram bytes) (.running s) = .next (.running t, .done) ∧
      (∀ (k : Nat) (h : k < bytes.length), readByte t (512 + k) = bytes[k]) ∧
      KeepsMemoryOutside 512 bytes.length s t ∧ KeepsAllBut [.memory] s t

/-- Calls outside their contract are refused: the spec's own decision D19 (log entry 10). -/
def Obligations.CallsOutsideContractAreRefused : Prop :=
  (∀ (k : Nat) (b : Bool) (s : State), 15 < k → Session.call (.setPressed k b) (.running s) = .refused .keyIndexOutOfContract) ∧
  (∀ (bytes : List Byte) (s : State), 3584 < bytes.length →
    Session.call (.loadProgram bytes) (.running s) = .refused .blockOutOfContract) ∧
  (∀ (data : List Byte) (a : Nat) (s : State), 4096 < a + data.length → writeBlock data a s = .refused .blockOutOfContract)

/-- 70_reset_and_hazards.md R192: the state after reset does not depend on the state before it (the random source, outside
the machine, apart), and is the state the rule lists. -/
def Obligations.ResetIsTotalAndIdempotent : Prop :=
  (∀ s t, KeepsAllBut [.draws] (hostReset s) (hostReset t)) ∧ (∀ s, hostReset (hostReset s) = hostReset s) ∧
  (∀ s, KeepsAllBut [.draws] State.reset (hostReset s) ∧ (hostReset s).draws = s.draws) ∧
  (∀ r, reg State.reset r = 0) ∧ State.reset.pc.toNat = 512 ∧ State.reset.stack = [] ∧
  State.reset.dt = 0 ∧ State.reset.st = 0 ∧ (∀ px py, cell State.reset px py = false) ∧
  (∀ a, a < 80 → some (readByte State.reset a) = fontTable[a]?)

/-- The reset values the spec reads into "all-zero registers" and "clears all flags": its own decision D17 (log entry 7),
and the memory above the font. -/
def Obligations.ResetClearsIndexKeysMemory : Prop :=
  State.reset.i = 0 ∧ (∀ k, keyFlag State.reset k = false) ∧ (∀ a, 80 ≤ a → readByte State.reset a = 0) ∧
  fontTable.length = 80

/-- Stepping a reset machine with no program: 1792 NOPs, then the fetch beyond memory (derived in 70_reset_and_hazards.md
section 2; the fault is decision D4, log entry 4). One run of one state: what it rests on, over all states, is the last
clause of `NopOnlyAdvancesPc`. -/
def Obligations.EmptyMachineRunsNops : Prop :=
  (∀ k, k ≤ 1792 → Sys2Proof.core.run k State.reset = .next { State.reset with pc := BitVec.ofNat 16 (512 + 2 * k) }) ∧
  (∀ k, 1792 < k → Sys2Proof.core.run k State.reset = .fault .memRange)

/-! Whole-machine rules. -/

/-- The invariant: the memory's canonical form, and the value ranges of 10_state.md section 7 (derived there). -/
def Obligations.StepKeepsInvariant : Prop := ∀ s t, Invariant s → step s = .next t → Invariant t

/-- The invariant holds at reset. -/
def Obligations.ResetMeetsInvariant : Prop := Invariant State.reset

/-- Every host operation keeps the invariant, a fatal step too. -/
def Obligations.HostCallsKeepInvariant : Prop :=
  ∀ c s m r, Invariant s → Session.call c (.running s) = .next (m, r) → ∃ t, (m = .running t ∨ m = .over t) ∧ Invariant t

/-- The encoding is the inverse of the decoding, for every instruction and operand (30_encoding.md section 5, its last
rule; the formulas of that rule stand in the statement of each instruction). -/
def Obligations.DecodeOfEncode : Prop := ∀ i : Instr, decode (encode i) = some i

/-- A word that decodes is the encoding of what it decodes to: no bit is dropped, the ignored field of the shifts
included. -/
def Obligations.EncodeOfDecode : Prop := ∀ (op : Word) (i : Instr), decode op = some i → encode i = op

/-- 30_encoding.md R75: a word decodes to the instruction of the one row that matches it, and to none when no row does. -/
def Obligations.RowsSelectTheInstruction : Prop :=
  opcodeRows.length = 35 ∧
  ∀ op : Word, (opcodeRows.filter (rowMatches op)).map OpcodeRow.id = (decode op).toList.map Instr.mnemonic

/-- 30_encoding.md R77: the words that do not decode are exactly those of the table of illegal opcodes, and a step that
fetches one is the fatal condition. -/
def Obligations.IllegalWordsAreTheTable : Prop :=
  (∀ op : Word, decode op = none ↔ WellFormed.legalWord op = false) ∧
  ∀ s op, fetch s = some op → WellFormed.legalWord op = false → step s = .fault (.unimplementedOpcode op s.pc)

/-- The counts of 30_encoding.md section 3, derived there by enumeration: 43955 legal words, 21581 illegal. -/
def Obligations.LegalWordCount : Prop :=
  ((List.range 65536).filter fun w => (decode (BitVec.ofNat 16 w)).isSome).length = 43955 ∧
  ((List.range 65536).filter fun w => (decode (BitVec.ofNat 16 w)).isNone).length = 21581

/-- Each part of the state changes only by the instructions that 10_state.md sections 2 to 5 name as its writers, over all
instructions: `I`, the stack, the timers, the display, the keys, the byte order, the memory, and `pc` beyond the
fetch's advance. -/
def Obligations.OnlyNamedInstructionsWrite : Prop :=
  ∀ i s t, exec i s = .next t →
    keeps s t .keys ∧ keeps s t .mode ∧
    (keeps s t .index ∨ (∃ nnn, i = .ldI nnn) ∨ (∃ x, i = .addI x) ∨ ∃ x, i = .ldF x) ∧
    (keeps s t .stack ∨ (∃ nnn, i = .call nnn) ∨ i = .ret) ∧
    (keeps s t .delay ∨ ∃ x, i = .ldDtVx x) ∧ (keeps s t .sound ∨ ∃ x, i = .ldStVx x) ∧
    (keeps s t .display ∨ i = .cls ∨ ∃ x y n, i = .drw x y n) ∧
    (keeps s t .memory ∨ (∃ x, i = .ldB x) ∨ ∃ x, i = .stRegs x) ∧
    (keeps s t .pc ∨ (∃ nnn, i = .jp nnn) ∨ (∃ nnn, i = .call nnn) ∨ (∃ nnn, i = .jpV0 nnn) ∨ i = .ret ∨
      (∃ c, skipCondition i s = some c ∧ c ∧ t.pc = s.pc + 2) ∨
      ∃ x, i = .ldVxK x ∧ t.pc = s.pc - 2)

/-- 10_state.md R34: the flag each of the six instructions writes, and that no other changes `VF` unless it names it;
every register that is no destination is unchanged; for the shifts 42_alu.md R128 and R130. What `VF` holds after an
instruction that names it (`x = F` in ADD, SUB, SUBN, SHR, SHL; `x` or `y = F` in DRW) is the spec's decisions D2 and D3
(log entry 5). -/
def Obligations.FlagWritersAndDestinations : Prop :=
  (∀ i s t, exec i s = .next t → KeepsRegsBut (destinations i) s t) ∧
  (∀ x y s t, exec (.addReg x y) s = .next t →
    reg t 0xF#4 = if (reg s x).toNat + (reg s y).toNat > 255 then 1 else 0) ∧
  (∀ x y s t, exec (.subReg x y) s = .next t → reg t 0xF#4 = if (reg s x).toNat < (reg s y).toNat then 0 else 1) ∧
  (∀ x y s t, exec (.subnReg x y) s = .next t → reg t 0xF#4 = if (reg s y).toNat < (reg s x).toNat then 0 else 1) ∧
  (∀ x y, decode (wordXYN 0x8006#16 x y 0) = some (.shr x y) ∧ decode (wordXYN 0x800E#16 x y 0) = some (.shl x y)) ∧
  (∀ x y s t, exec (.shr x y) s = .next t → KeepsAllBut [.regs] s t ∧ (x ≠ 0xF#4 →
    (reg t 0xF#4 = if (reg s x).getLsbD 0 then 1 else 0) ∧ (reg t x).toNat = (reg s x).toNat / 2)) ∧
  (∀ x y s t, exec (.shl x y) s = .next t → KeepsAllBut [.regs] s t ∧ (x ≠ 0xF#4 →
    (reg t 0xF#4 = if (reg s x).getLsbD 7 then 1 else 0) ∧ (reg t x).toNat = (reg s x).toNat * 2 % 256)) ∧
  (∀ y s t u, exec (.shr 0xF#4 y) s = .next t → exec (.shl 0xF#4 y) s = .next u →
    reg t 0xF#4 = 0 ∧ reg u 0xF#4 = if (reg s 0xF#4).getLsbD 7 then 2 else 0) ∧
  (∀ x y n s t, exec (.drw x y n) s = .next t →
    (reg t 0xF#4 = 1 ∧ ∃ px py, SpriteCovers s x y n px py ∧ cell s px py = true) ∨
    (reg t 0xF#4 = 0 ∧ ¬ ∃ px py, SpriteCovers s x y n px py ∧ cell s px py = true))

/-- In the canonical form, memories that read alike are the same list. -/
def Obligations.CanonicalMemoryIsUnique : Prop :=
  ∀ m n : Memory, m.wf → n.wf → (∀ a, m.read a = n.read a) → m = n

/-- No instruction reads the sound timer or the byte order (10_state.md sections 3 and 5): setting them before an
instruction is setting them after it, but for the instruction that writes `ST`. -/
def Obligations.SoundAndByteOrderAreNeverRead : Prop :=
  (∀ i s mode, exec i (setBo mode s) = mapNext (setBo mode) (exec i s)) ∧
  (∀ i s b, (∀ x, i ≠ .ldStVx x) → exec i (setSt b s) = mapNext (setSt b) (exec i s)) ∧
  (∀ x s b, exec (.ldStVx x) (setSt b s) = exec (.ldStVx x) s)

/-! The end of a run (70_reset_and_hazards.md section 5). -/

/-- A step goes on, is fatal, or is undefined, and is never refused; a run that is neither goes on until the host stops
(70_reset_and_hazards.md section 5; that undefined behaviour is a fault is decisions D4 and D5, log entry 4, that a fatal
condition ends the run is D10 and its codes are D9, log entry 8). -/
def Obligations.RunsEndInThreeWays : Prop :=
  (∀ s, (∃ t, step s = .next t ∧ Session.call .step (.running s) = .next (.running t, .done)) ∨
    (∃ f code op a, step s = .fault f ∧ diagnostic f = some (code, op, a) ∧
      Session.call .step (.running s) = .next (.over (leftByFatal s), .fatal code op a)) ∨
    (∃ f, step s = .fault f ∧ diagnostic f = none ∧ Session.call .step (.running s) = .fault f)) ∧
  (∀ s r, step s ≠ .refused r) ∧ (∀ w, Session.calls [] w = .next (w, .done))

/-- The fixed points of the step: a jump to itself, JP or JP V0, which is where a program has finished (the spec's
decision D21, log entry 20), and a wait for a key with none pressed, which is not. A finished machine still runs: no step
changes it, ticks still count and keys still change, and it stays finished until a reset, a load or a change of the byte
order. -/
def Obligations.FinishedIsAJumpToItself : Prop :=
  (∀ a s, FinishedAt a s ↔ s.pc = a ∧ ∃ nnn : Addr12,
    (fetch s = some (wordA 0x1000#16 nnn) ∧ a.toNat = nnn.toNat) ∨
    (fetch s = some (wordA 0xB000#16 nnn) ∧ a.toNat = (reg s 0).toNat + nnn.toNat)) ∧
  (∀ s, step s = .next s ↔ FinishedAt s.pc s ∨
    (∃ x, fetch s = some (wordXF 0xF00A#16 x)) ∧ ∀ k, keyFlag s k = false) ∧
  (∀ a s k, FinishedAt a s → Sys2Proof.core.run k s = .next s) ∧
  (∀ a s, FinishedAt a s → FinishedAt a (tickTimers s).1 ∧
    ∀ (k : Fin 16) b, ∃ t, setPressed k.1 b s = .next t ∧ keyFlag t k = b ∧ FinishedAt a t) ∧
  (∀ a s c w r, FinishedAt a s → c ≠ .reset → (∀ mode, c ≠ .setByteOrder mode) → (∀ bytes, c ≠ .loadProgram bytes) →
    Session.call c (.running s) = .next (w, r) → ∃ t, w = .running t ∧ FinishedAt a t)
end

