-- ==== Sys2Proof/Laws/Decode.lean ====
section
/-! SUPPORT. The fields of an encoded word. -/

namespace Sys2Proof

/-- A field that lies in the low part of a concatenation. -/
theorem extract_append_low {a b lo len : Nat} (x : BitVec a) (y : BitVec b) (h : lo + len ≤ b) :
    (x ++ y).extractLsb' lo len = y.extractLsb' lo len := by
  ext k hk
  simp [BitVec.getElem_extractLsb', BitVec.getLsbD_append, show lo + k < b by omega]

/-- A field that lies in the high part of a concatenation. -/
theorem extract_append_high {a b lo len : Nat} (x : BitVec a) (y : BitVec b) (h : b ≤ lo) :
    (x ++ y).extractLsb' lo len = x.extractLsb' (lo - b) len := by
  ext k hk
  simp [BitVec.getElem_extractLsb', BitVec.getLsbD_append, show ¬ lo + k < b by omega, show lo + k - b = lo - b + k by omega]

/-- The field that is the whole. -/
theorem extract_whole {a : Nat} (x : BitVec a) : x.extractLsb' 0 a = x := by
  ext k hk
  simp

@[simp] theorem fieldH_encodeA (h : Nibble) (nnn : Addr12) : fieldH (encodeA h nnn) = h := by
  rw [fieldH, encodeA, extract_append_high _ _ (by omega)]; exact extract_whole h

@[simp] theorem fieldNNN_encodeA (h : Nibble) (nnn : Addr12) : fieldNNN (encodeA h nnn) = nnn := by
  rw [fieldNNN, encodeA, extract_append_low _ _ (by omega)]; exact extract_whole nnn

@[simp] theorem fieldH_encodeXI (h : Nibble) (x : Reg) (nn : Byte) : fieldH (encodeXI h x nn) = h := by
  rw [fieldH, encodeXI, extract_append_high _ _ (by omega), extract_append_high _ _ (by omega)]; exact extract_whole h

@[simp] theorem fieldX_encodeXI (h : Nibble) (x : Reg) (nn : Byte) : fieldX (encodeXI h x nn) = x := by
  rw [fieldX, encodeXI, extract_append_high _ _ (by omega), extract_append_low _ _ (by omega)]; exact extract_whole x

@[simp] theorem fieldNN_encodeXI (h : Nibble) (x : Reg) (nn : Byte) : fieldNN (encodeXI h x nn) = nn := by
  rw [fieldNN, encodeXI, extract_append_low _ _ (by omega)]; exact extract_whole nn

@[simp] theorem fieldH_encodeXYN (h : Nibble) (x y : Reg) (n : Nibble) : fieldH (encodeXYN h x y n) = h := by
  rw [fieldH, encodeXYN, extract_append_high _ _ (by omega), extract_append_high _ _ (by omega),
    extract_append_high _ _ (by omega)]
  exact extract_whole h

@[simp] theorem fieldX_encodeXYN (h : Nibble) (x y : Reg) (n : Nibble) : fieldX (encodeXYN h x y n) = x := by
  rw [fieldX, encodeXYN, extract_append_high _ _ (by omega), extract_append_high _ _ (by omega),
    extract_append_low _ _ (by omega)]
  exact extract_whole x

@[simp] theorem fieldY_encodeXYN (h : Nibble) (x y : Reg) (n : Nibble) : fieldY (encodeXYN h x y n) = y := by
  rw [fieldY, encodeXYN, extract_append_high _ _ (by omega), extract_append_low _ _ (by omega)]; exact extract_whole y

@[simp] theorem fieldN_encodeXYN (h : Nibble) (x y : Reg) (n : Nibble) : fieldN (encodeXYN h x y n) = n := by
  rw [fieldN, encodeXYN, extract_append_low _ _ (by omega)]; exact extract_whole n

/-! The number an encoded word is. -/

theorem toNat_append_add {a b : Nat} (x : BitVec a) (y : BitVec b) : (x ++ y).toNat = x.toNat * 2 ^ b + y.toNat := by
  rw [BitVec.toNat_append, ← Nat.shiftLeft_add_eq_or_of_lt y.isLt, Nat.shiftLeft_eq]

theorem toNat_encodeA (h : Nibble) (nnn : Addr12) : (encodeA h nnn).toNat = h.toNat * 4096 + nnn.toNat :=
  toNat_append_add h nnn

theorem toNat_encodeXI (h : Nibble) (x : Reg) (nn : Byte) :
    (encodeXI h x nn).toNat = h.toNat * 4096 + x.toNat * 256 + nn.toNat := by
  unfold encodeXI
  rw [toNat_append_add, toNat_append_add]
  ring

theorem toNat_encodeXYN (h : Nibble) (x y : Reg) (n : Nibble) :
    (encodeXYN h x y n).toNat = h.toNat * 4096 + x.toNat * 256 + y.toNat * 16 + n.toNat := by
  unfold encodeXYN
  rw [toNat_append_add, toNat_append_add, toNat_append_add]
  ring

/-! A word from its fields. -/

theorem fieldNN_eq (op : Word) : fieldNN op = fieldY op ++ fieldN op := by
  apply BitVec.eq_of_getLsbD_eq
  intro k hk
  simp only [fieldNN, fieldY, fieldN, BitVec.getLsbD_append, BitVec.getLsbD_extractLsb']
  interval_cases k <;> simp

theorem fieldNNN_eq (op : Word) : fieldNNN op = fieldX op ++ fieldY op ++ fieldN op := by
  apply BitVec.eq_of_getLsbD_eq
  intro k hk
  simp only [fieldNNN, fieldX, fieldY, fieldN, BitVec.getLsbD_append, BitVec.getLsbD_extractLsb']
  interval_cases k <;> simp

/-- The four nibbles of a word, read as format XYN, are the word. -/
theorem encodeXYN_fields (op : Word) : encodeXYN (fieldH op) (fieldX op) (fieldY op) (fieldN op) = op := by
  apply BitVec.eq_of_getLsbD_eq
  intro k hk
  simp only [encodeXYN, fieldH, fieldX, fieldY, fieldN, BitVec.getLsbD_append, BitVec.getLsbD_extractLsb']
  interval_cases k <;> simp

/-- Its fields read as format XI are the word. -/
theorem encodeXI_fields (op : Word) : encodeXI (fieldH op) (fieldX op) (fieldNN op) = op := by
  apply BitVec.eq_of_toNat_eq
  conv_rhs => rw [← encodeXYN_fields op]
  rw [toNat_encodeXI, toNat_encodeXYN, fieldNN_eq, toNat_append_add]
  ring

/-- Its fields read as format A are the word. -/
theorem encodeA_fields (op : Word) : encodeA (fieldH op) (fieldNNN op) = op := by
  apply BitVec.eq_of_toNat_eq
  conv_rhs => rw [← encodeXYN_fields op]
  rw [toNat_encodeA, toNat_encodeXYN, fieldNNN_eq, toNat_append_add, toNat_append_add]
  ring

end Sys2Proof
end

