-- ==== Sys2Proof/Laws/Loops.lean ====
section
/-! SUPPORT. The bounded loop: an invariant that each round keeps holds after it. -/

namespace Sys2Proof.Machine

variable {α : Type}

@[simp] theorem forUpTo_zero (body : Nat → α → α) (a : α) : forUpTo body 0 a = a := rfl

theorem forUpTo_succ (body : Nat → α → α) (n : Nat) (a : α) :
    forUpTo body (n + 1) a = body n (forUpTo body n a) := rfl

/-- The loop rule: `P k` holds before round `k`, each round takes `P k` to `P (k + 1)`. -/
theorem forUpTo_rule (P : Nat → α → Prop) {body : Nat → α → α} {a : α} (start : P 0 a) :
    ∀ n, (∀ k < n, ∀ c, P k c → P (k + 1) (body k c)) → P n (forUpTo body n a)
  | 0, _ => start
  | n + 1, round =>
    round n (Nat.lt_succ_self n) _ (forUpTo_rule P start n fun k hk => round k (Nat.lt_succ_of_lt hk))

end Sys2Proof.Machine
end

