-- ==== Sys2Proof/Laws/State.lean ====
section
/-! SUPPORT. One lemma per field per update, true by unfolding, so that no proof unfolds a record update; and the reset
state's fields. -/

namespace Sys2Proof.Machine

variable (s : State)

/-! Writing `v`. -/

@[simp] theorem setV_v (b : Vector Byte Config.nReg) : (setV b s).v = b := rfl
@[simp] theorem setV_i (b : Vector Byte Config.nReg) : (setV b s).i = s.i := rfl
@[simp] theorem setV_pc (b : Vector Byte Config.nReg) : (setV b s).pc = s.pc := rfl
@[simp] theorem setV_stack (b : Vector Byte Config.nReg) : (setV b s).stack = s.stack := rfl
@[simp] theorem setV_dt (b : Vector Byte Config.nReg) : (setV b s).dt = s.dt := rfl
@[simp] theorem setV_st (b : Vector Byte Config.nReg) : (setV b s).st = s.st := rfl
@[simp] theorem setV_disp (b : Vector Byte Config.nReg) : (setV b s).disp = s.disp := rfl
@[simp] theorem setV_key (b : Vector Byte Config.nReg) : (setV b s).key = s.key := rfl
@[simp] theorem setV_mem (b : Vector Byte Config.nReg) : (setV b s).mem = s.mem := rfl
@[simp] theorem setV_bo (b : Vector Byte Config.nReg) : (setV b s).bo = s.bo := rfl
@[simp] theorem setV_draws (b : Vector Byte Config.nReg) : (setV b s).draws = s.draws := rfl

/-! Writing `i`. -/

@[simp] theorem setI_v (b : Word) : (setI b s).v = s.v := rfl
@[simp] theorem setI_i (b : Word) : (setI b s).i = b := rfl
@[simp] theorem setI_pc (b : Word) : (setI b s).pc = s.pc := rfl
@[simp] theorem setI_stack (b : Word) : (setI b s).stack = s.stack := rfl
@[simp] theorem setI_dt (b : Word) : (setI b s).dt = s.dt := rfl
@[simp] theorem setI_st (b : Word) : (setI b s).st = s.st := rfl
@[simp] theorem setI_disp (b : Word) : (setI b s).disp = s.disp := rfl
@[simp] theorem setI_key (b : Word) : (setI b s).key = s.key := rfl
@[simp] theorem setI_mem (b : Word) : (setI b s).mem = s.mem := rfl
@[simp] theorem setI_bo (b : Word) : (setI b s).bo = s.bo := rfl
@[simp] theorem setI_draws (b : Word) : (setI b s).draws = s.draws := rfl

/-! Writing `pc`. -/

@[simp] theorem setPc_v (b : Word) : (setPc b s).v = s.v := rfl
@[simp] theorem setPc_i (b : Word) : (setPc b s).i = s.i := rfl
@[simp] theorem setPc_pc (b : Word) : (setPc b s).pc = b := rfl
@[simp] theorem setPc_stack (b : Word) : (setPc b s).stack = s.stack := rfl
@[simp] theorem setPc_dt (b : Word) : (setPc b s).dt = s.dt := rfl
@[simp] theorem setPc_st (b : Word) : (setPc b s).st = s.st := rfl
@[simp] theorem setPc_disp (b : Word) : (setPc b s).disp = s.disp := rfl
@[simp] theorem setPc_key (b : Word) : (setPc b s).key = s.key := rfl
@[simp] theorem setPc_mem (b : Word) : (setPc b s).mem = s.mem := rfl
@[simp] theorem setPc_bo (b : Word) : (setPc b s).bo = s.bo := rfl
@[simp] theorem setPc_draws (b : Word) : (setPc b s).draws = s.draws := rfl

/-! Writing `stack`. -/

@[simp] theorem setStack_v (b : List Word) : (setStack b s).v = s.v := rfl
@[simp] theorem setStack_i (b : List Word) : (setStack b s).i = s.i := rfl
@[simp] theorem setStack_pc (b : List Word) : (setStack b s).pc = s.pc := rfl
@[simp] theorem setStack_stack (b : List Word) : (setStack b s).stack = b := rfl
@[simp] theorem setStack_dt (b : List Word) : (setStack b s).dt = s.dt := rfl
@[simp] theorem setStack_st (b : List Word) : (setStack b s).st = s.st := rfl
@[simp] theorem setStack_disp (b : List Word) : (setStack b s).disp = s.disp := rfl
@[simp] theorem setStack_key (b : List Word) : (setStack b s).key = s.key := rfl
@[simp] theorem setStack_mem (b : List Word) : (setStack b s).mem = s.mem := rfl
@[simp] theorem setStack_bo (b : List Word) : (setStack b s).bo = s.bo := rfl
@[simp] theorem setStack_draws (b : List Word) : (setStack b s).draws = s.draws := rfl

/-! Writing `dt`. -/

@[simp] theorem setDt_v (b : Byte) : (setDt b s).v = s.v := rfl
@[simp] theorem setDt_i (b : Byte) : (setDt b s).i = s.i := rfl
@[simp] theorem setDt_pc (b : Byte) : (setDt b s).pc = s.pc := rfl
@[simp] theorem setDt_stack (b : Byte) : (setDt b s).stack = s.stack := rfl
@[simp] theorem setDt_dt (b : Byte) : (setDt b s).dt = b := rfl
@[simp] theorem setDt_st (b : Byte) : (setDt b s).st = s.st := rfl
@[simp] theorem setDt_disp (b : Byte) : (setDt b s).disp = s.disp := rfl
@[simp] theorem setDt_key (b : Byte) : (setDt b s).key = s.key := rfl
@[simp] theorem setDt_mem (b : Byte) : (setDt b s).mem = s.mem := rfl
@[simp] theorem setDt_bo (b : Byte) : (setDt b s).bo = s.bo := rfl
@[simp] theorem setDt_draws (b : Byte) : (setDt b s).draws = s.draws := rfl

/-! Writing `st`. -/

@[simp] theorem setSt_v (b : Byte) : (setSt b s).v = s.v := rfl
@[simp] theorem setSt_i (b : Byte) : (setSt b s).i = s.i := rfl
@[simp] theorem setSt_pc (b : Byte) : (setSt b s).pc = s.pc := rfl
@[simp] theorem setSt_stack (b : Byte) : (setSt b s).stack = s.stack := rfl
@[simp] theorem setSt_dt (b : Byte) : (setSt b s).dt = s.dt := rfl
@[simp] theorem setSt_st (b : Byte) : (setSt b s).st = b := rfl
@[simp] theorem setSt_disp (b : Byte) : (setSt b s).disp = s.disp := rfl
@[simp] theorem setSt_key (b : Byte) : (setSt b s).key = s.key := rfl
@[simp] theorem setSt_mem (b : Byte) : (setSt b s).mem = s.mem := rfl
@[simp] theorem setSt_bo (b : Byte) : (setSt b s).bo = s.bo := rfl
@[simp] theorem setSt_draws (b : Byte) : (setSt b s).draws = s.draws := rfl

/-! Writing `disp`. -/

@[simp] theorem setDisp_v (b : Display) : (setDisp b s).v = s.v := rfl
@[simp] theorem setDisp_i (b : Display) : (setDisp b s).i = s.i := rfl
@[simp] theorem setDisp_pc (b : Display) : (setDisp b s).pc = s.pc := rfl
@[simp] theorem setDisp_stack (b : Display) : (setDisp b s).stack = s.stack := rfl
@[simp] theorem setDisp_dt (b : Display) : (setDisp b s).dt = s.dt := rfl
@[simp] theorem setDisp_st (b : Display) : (setDisp b s).st = s.st := rfl
@[simp] theorem setDisp_disp (b : Display) : (setDisp b s).disp = b := rfl
@[simp] theorem setDisp_key (b : Display) : (setDisp b s).key = s.key := rfl
@[simp] theorem setDisp_mem (b : Display) : (setDisp b s).mem = s.mem := rfl
@[simp] theorem setDisp_bo (b : Display) : (setDisp b s).bo = s.bo := rfl
@[simp] theorem setDisp_draws (b : Display) : (setDisp b s).draws = s.draws := rfl

/-! Writing `key`. -/

@[simp] theorem setKey_v (b : Vector Bool Config.nKeys) : (setKey b s).v = s.v := rfl
@[simp] theorem setKey_i (b : Vector Bool Config.nKeys) : (setKey b s).i = s.i := rfl
@[simp] theorem setKey_pc (b : Vector Bool Config.nKeys) : (setKey b s).pc = s.pc := rfl
@[simp] theorem setKey_stack (b : Vector Bool Config.nKeys) : (setKey b s).stack = s.stack := rfl
@[simp] theorem setKey_dt (b : Vector Bool Config.nKeys) : (setKey b s).dt = s.dt := rfl
@[simp] theorem setKey_st (b : Vector Bool Config.nKeys) : (setKey b s).st = s.st := rfl
@[simp] theorem setKey_disp (b : Vector Bool Config.nKeys) : (setKey b s).disp = s.disp := rfl
@[simp] theorem setKey_key (b : Vector Bool Config.nKeys) : (setKey b s).key = b := rfl
@[simp] theorem setKey_mem (b : Vector Bool Config.nKeys) : (setKey b s).mem = s.mem := rfl
@[simp] theorem setKey_bo (b : Vector Bool Config.nKeys) : (setKey b s).bo = s.bo := rfl
@[simp] theorem setKey_draws (b : Vector Bool Config.nKeys) : (setKey b s).draws = s.draws := rfl

/-! Writing `mem`. -/

@[simp] theorem setMem_v (b : Memory) : (setMem b s).v = s.v := rfl
@[simp] theorem setMem_i (b : Memory) : (setMem b s).i = s.i := rfl
@[simp] theorem setMem_pc (b : Memory) : (setMem b s).pc = s.pc := rfl
@[simp] theorem setMem_stack (b : Memory) : (setMem b s).stack = s.stack := rfl
@[simp] theorem setMem_dt (b : Memory) : (setMem b s).dt = s.dt := rfl
@[simp] theorem setMem_st (b : Memory) : (setMem b s).st = s.st := rfl
@[simp] theorem setMem_disp (b : Memory) : (setMem b s).disp = s.disp := rfl
@[simp] theorem setMem_key (b : Memory) : (setMem b s).key = s.key := rfl
@[simp] theorem setMem_mem (b : Memory) : (setMem b s).mem = b := rfl
@[simp] theorem setMem_bo (b : Memory) : (setMem b s).bo = s.bo := rfl
@[simp] theorem setMem_draws (b : Memory) : (setMem b s).draws = s.draws := rfl

/-! Writing `bo`. -/

@[simp] theorem setBo_v (b : ByteOrder) : (setBo b s).v = s.v := rfl
@[simp] theorem setBo_i (b : ByteOrder) : (setBo b s).i = s.i := rfl
@[simp] theorem setBo_pc (b : ByteOrder) : (setBo b s).pc = s.pc := rfl
@[simp] theorem setBo_stack (b : ByteOrder) : (setBo b s).stack = s.stack := rfl
@[simp] theorem setBo_dt (b : ByteOrder) : (setBo b s).dt = s.dt := rfl
@[simp] theorem setBo_st (b : ByteOrder) : (setBo b s).st = s.st := rfl
@[simp] theorem setBo_disp (b : ByteOrder) : (setBo b s).disp = s.disp := rfl
@[simp] theorem setBo_key (b : ByteOrder) : (setBo b s).key = s.key := rfl
@[simp] theorem setBo_mem (b : ByteOrder) : (setBo b s).mem = s.mem := rfl
@[simp] theorem setBo_bo (b : ByteOrder) : (setBo b s).bo = b := rfl
@[simp] theorem setBo_draws (b : ByteOrder) : (setBo b s).draws = s.draws := rfl

/-! Writing `draws`. -/

@[simp] theorem setDraws_v (b : Nat) : (setDraws b s).v = s.v := rfl
@[simp] theorem setDraws_i (b : Nat) : (setDraws b s).i = s.i := rfl
@[simp] theorem setDraws_pc (b : Nat) : (setDraws b s).pc = s.pc := rfl
@[simp] theorem setDraws_stack (b : Nat) : (setDraws b s).stack = s.stack := rfl
@[simp] theorem setDraws_dt (b : Nat) : (setDraws b s).dt = s.dt := rfl
@[simp] theorem setDraws_st (b : Nat) : (setDraws b s).st = s.st := rfl
@[simp] theorem setDraws_disp (b : Nat) : (setDraws b s).disp = s.disp := rfl
@[simp] theorem setDraws_key (b : Nat) : (setDraws b s).key = s.key := rfl
@[simp] theorem setDraws_mem (b : Nat) : (setDraws b s).mem = s.mem := rfl
@[simp] theorem setDraws_bo (b : Nat) : (setDraws b s).bo = s.bo := rfl
@[simp] theorem setDraws_draws (b : Nat) : (setDraws b s).draws = b := rfl

/-! `setReg`. -/

@[simp] theorem setReg_v (r : Reg) (b : Byte) : (setReg r b s).v = s.v.set r.toNat b r.isLt := rfl
@[simp] theorem setReg_i (r : Reg) (b : Byte) : (setReg r b s).i = s.i := rfl
@[simp] theorem setReg_pc (r : Reg) (b : Byte) : (setReg r b s).pc = s.pc := rfl
@[simp] theorem setReg_stack (r : Reg) (b : Byte) : (setReg r b s).stack = s.stack := rfl
@[simp] theorem setReg_dt (r : Reg) (b : Byte) : (setReg r b s).dt = s.dt := rfl
@[simp] theorem setReg_st (r : Reg) (b : Byte) : (setReg r b s).st = s.st := rfl
@[simp] theorem setReg_disp (r : Reg) (b : Byte) : (setReg r b s).disp = s.disp := rfl
@[simp] theorem setReg_key (r : Reg) (b : Byte) : (setReg r b s).key = s.key := rfl
@[simp] theorem setReg_mem (r : Reg) (b : Byte) : (setReg r b s).mem = s.mem := rfl
@[simp] theorem setReg_bo (r : Reg) (b : Byte) : (setReg r b s).bo = s.bo := rfl
@[simp] theorem setReg_draws (r : Reg) (b : Byte) : (setReg r b s).draws = s.draws := rfl

/-! `writeByte`. -/

@[simp] theorem writeByte_v (a : Nat) (b : Byte) : (writeByte a b s).v = s.v := rfl
@[simp] theorem writeByte_i (a : Nat) (b : Byte) : (writeByte a b s).i = s.i := rfl
@[simp] theorem writeByte_pc (a : Nat) (b : Byte) : (writeByte a b s).pc = s.pc := rfl
@[simp] theorem writeByte_stack (a : Nat) (b : Byte) : (writeByte a b s).stack = s.stack := rfl
@[simp] theorem writeByte_dt (a : Nat) (b : Byte) : (writeByte a b s).dt = s.dt := rfl
@[simp] theorem writeByte_st (a : Nat) (b : Byte) : (writeByte a b s).st = s.st := rfl
@[simp] theorem writeByte_disp (a : Nat) (b : Byte) : (writeByte a b s).disp = s.disp := rfl
@[simp] theorem writeByte_key (a : Nat) (b : Byte) : (writeByte a b s).key = s.key := rfl
@[simp] theorem writeByte_mem (a : Nat) (b : Byte) : (writeByte a b s).mem = s.mem.write a b := rfl
@[simp] theorem writeByte_bo (a : Nat) (b : Byte) : (writeByte a b s).bo = s.bo := rfl
@[simp] theorem writeByte_draws (a : Nat) (b : Byte) : (writeByte a b s).draws = s.draws := rfl

/-! `push`. -/

@[simp] theorem push_v (b : Word) : (push b s).v = s.v := rfl
@[simp] theorem push_i (b : Word) : (push b s).i = s.i := rfl
@[simp] theorem push_pc (b : Word) : (push b s).pc = s.pc := rfl
@[simp] theorem push_stack (b : Word) : (push b s).stack = b :: s.stack := rfl
@[simp] theorem push_dt (b : Word) : (push b s).dt = s.dt := rfl
@[simp] theorem push_st (b : Word) : (push b s).st = s.st := rfl
@[simp] theorem push_disp (b : Word) : (push b s).disp = s.disp := rfl
@[simp] theorem push_key (b : Word) : (push b s).key = s.key := rfl
@[simp] theorem push_mem (b : Word) : (push b s).mem = s.mem := rfl
@[simp] theorem push_bo (b : Word) : (push b s).bo = s.bo := rfl
@[simp] theorem push_draws (b : Word) : (push b s).draws = s.draws := rfl

/-! `advancePc`. -/

@[simp] theorem advancePc_v : (advancePc s).v = s.v := rfl
@[simp] theorem advancePc_i : (advancePc s).i = s.i := rfl
@[simp] theorem advancePc_pc : (advancePc s).pc = s.pc + 2 := rfl
@[simp] theorem advancePc_stack : (advancePc s).stack = s.stack := rfl
@[simp] theorem advancePc_dt : (advancePc s).dt = s.dt := rfl
@[simp] theorem advancePc_st : (advancePc s).st = s.st := rfl
@[simp] theorem advancePc_disp : (advancePc s).disp = s.disp := rfl
@[simp] theorem advancePc_key : (advancePc s).key = s.key := rfl
@[simp] theorem advancePc_mem : (advancePc s).mem = s.mem := rfl
@[simp] theorem advancePc_bo : (advancePc s).bo = s.bo := rfl
@[simp] theorem advancePc_draws : (advancePc s).draws = s.draws := rfl

/-! `countDraw`. -/

@[simp] theorem countDraw_v : (countDraw s).v = s.v := rfl
@[simp] theorem countDraw_i : (countDraw s).i = s.i := rfl
@[simp] theorem countDraw_pc : (countDraw s).pc = s.pc := rfl
@[simp] theorem countDraw_stack : (countDraw s).stack = s.stack := rfl
@[simp] theorem countDraw_dt : (countDraw s).dt = s.dt := rfl
@[simp] theorem countDraw_st : (countDraw s).st = s.st := rfl
@[simp] theorem countDraw_disp : (countDraw s).disp = s.disp := rfl
@[simp] theorem countDraw_key : (countDraw s).key = s.key := rfl
@[simp] theorem countDraw_mem : (countDraw s).mem = s.mem := rfl
@[simp] theorem countDraw_bo : (countDraw s).bo = s.bo := rfl
@[simp] theorem countDraw_draws : (countDraw s).draws = s.draws + 1 := rfl

/-! Reset. -/

@[simp] theorem reset_i : State.reset.i = 0 := rfl
@[simp] theorem reset_pc : State.reset.pc = 512#16 := rfl
@[simp] theorem reset_stack : State.reset.stack = [] := rfl
@[simp] theorem reset_dt : State.reset.dt = 0 := rfl
@[simp] theorem reset_st : State.reset.st = 0 := rfl
@[simp] theorem reset_mem : State.reset.mem = [] := rfl
@[simp] theorem reset_bo : State.reset.bo = .big := rfl
@[simp] theorem reset_draws : State.reset.draws = 0 := rfl

end Sys2Proof.Machine
end

