-- ==== Sys2Proof/Laws/Memory.lean ====
section
/-! SUPPORT. The memory: a read after a write, and that every memory operation keeps the canonical form. -/

namespace Sys2Proof.Machine

@[simp] theorem Memory.read_nil (a : Nat) : Memory.read [] a = initialByte a := rfl

theorem Memory.read_cons (c : Host.Cell) (m : Memory) (a : Nat) :
    Memory.read (c :: m) a = if a = c.1 then c.2 else Memory.read m a := by
  obtain ⟨k, v⟩ := c
  by_cases h : a = k
  · subst h; simp [Memory.read]
  · have hb : (a == k) = false := by simpa using h
    simp only [Memory.read, List.lookup, hb, if_neg h]

/-- The listed addresses of an inserted memory are the old ones and the new one. -/
theorem Memory.mem_insert_subset {a : Nat} {b : Byte} {m : Memory} {c : Host.Cell} (h : c ∈ Memory.insert a b m) :
    c = (a, b) ∨ c ∈ m := by
  induction m with
  | nil => simpa [Memory.insert] using h
  | cons d m ih =>
    simp only [Memory.insert] at h
    split at h
    · simpa using h
    · split at h
      · rcases List.mem_cons.mp h with h | h
        · exact .inl h
        · exact .inr (List.mem_cons_of_mem _ h)
      · rcases List.mem_cons.mp h with h | h
        · exact .inr (h ▸ List.mem_cons_self)
        · exact (ih h).imp id (List.mem_cons_of_mem _)

theorem Memory.insert_rising {a : Nat} {b : Byte} {m : Memory} (h : m.Pairwise (fun c d => c.1 < d.1)) :
    (Memory.insert a b m).Pairwise (fun c d => c.1 < d.1) := by
  induction m with
  | nil => simp [Memory.insert]
  | cons d m ih =>
    obtain ⟨hd, hm⟩ := List.pairwise_cons.mp h
    simp only [Memory.insert]
    split
    · rename_i hlt
      refine List.pairwise_cons.mpr ⟨fun c hc => ?_, h⟩
      rcases List.mem_cons.mp hc with rfl | hc
      · exact hlt
      · exact Nat.lt_trans hlt (hd c hc)
    · split
      · rename_i heq
        exact List.pairwise_cons.mpr ⟨fun c hc => heq ▸ hd c hc, hm⟩
      · refine List.pairwise_cons.mpr ⟨fun c hc => ?_, ih hm⟩
        rcases Memory.mem_insert_subset hc with rfl | hc
        · simp only; omega
        · exact hd c hc

theorem Memory.read_insert {b : Byte} {m : Memory} (a q : Nat) :
    (Memory.insert a b m).read q = if q = a then b else m.read q := by
  induction m with
  | nil => simp [Memory.insert, Memory.read_cons]
  | cons d m ih =>
    simp only [Memory.insert]
    split
    · simp [Memory.read_cons]
    · split
      · rename_i heq
        by_cases h : q = a <;> simp [Memory.read_cons, h, ← heq]
      · rw [Memory.read_cons, ih, Memory.read_cons]
        by_cases h : q = a
        · have : ¬ a = d.1 := by assumption
          simp [h, this]
        · simp [h]

theorem Memory.read_erase (m : Memory) (a q : Nat) :
    (m.erase a).read q = if q = a then initialByte q else m.read q := by
  induction m with
  | nil => simp [Memory.erase]
  | cons d m ih =>
    simp only [Memory.erase] at ih
    by_cases hd : d.1 = a
    · rw [Memory.erase, List.filter_cons_of_neg (by simp [hd]), ih, Memory.read_cons]
      by_cases h : q = a <;> simp [h, hd]
    · rw [Memory.erase, List.filter_cons_of_pos (by simp [hd]), Memory.read_cons, ih, Memory.read_cons]
      by_cases h : q = a
      · simp [h, Ne.symm hd]
      · simp [h]

/-- A read gives the byte last written there, and a write changes no other address (20_memory.md R60). -/
theorem Memory.read_write (m : Memory) (a q : Nat) (b : Byte) :
    (m.write a b).read q = if q = a then b else m.read q := by
  unfold Memory.write
  split
  · rename_i hb
    rw [Memory.read_erase]
    by_cases h : q = a <;> simp [h, hb]
  · exact Memory.read_insert a q

theorem Memory.wf_nil : Memory.wf [] := ⟨List.Pairwise.nil, fun c hc => by cases hc⟩

/-- Writing inside the memory keeps the canonical form. -/
theorem Memory.write_wf {m : Memory} (h : m.wf) {a : Nat} (ha : a < Config.memSize) (b : Byte) : (m.write a b).wf := by
  unfold Memory.write
  split
  · exact ⟨h.1.filter _, fun c hc => h.2 c (List.mem_of_mem_filter hc)⟩
  · rename_i hb
    refine ⟨Memory.insert_rising h.1, fun c hc => ?_⟩
    rcases Memory.mem_insert_subset hc with rfl | hc
    · exact ⟨ha, hb⟩
    · exact h.2 c hc

end Sys2Proof.Machine
end

