-- ==== Sys2Proof/Laws/Ops.lean ====
section
/-! SUPPORT. What each shared operation does, said once: registers, memory accesses, bulk transfers, the range check, the
skip, the call stack, the fetch. -/

namespace Sys2Proof.Machine

/-! Registers (10_state.md R20). -/

@[simp] theorem reg_setReg (r q : Reg) (b : Byte) (s : State) : reg (setReg r b s) q = if q = r then b else reg s q := by
  by_cases h : q = r
  · subst h; simp [reg]
  · have : r.toNat ≠ q.toNat := fun e => h (BitVec.eq_of_toNat_eq e.symm)
    simp [reg, h, Vector.getElem_set_ne, this]

@[simp] theorem reg_setFlag (q : Reg) (c : Bool) (s : State) :
    reg (setFlag c s) q = if q = 0xF#4 then (if c then 1 else 0) else reg s q := by simp [setFlag, flagReg]

@[simp] theorem reg_setI (b : Word) (s : State) (r : Reg) : reg (setI b s) r = reg s r := rfl
@[simp] theorem reg_setPc (b : Word) (s : State) (r : Reg) : reg (setPc b s) r = reg s r := rfl
@[simp] theorem reg_setStack (b : List Word) (s : State) (r : Reg) : reg (setStack b s) r = reg s r := rfl
@[simp] theorem reg_setDt (b : Byte) (s : State) (r : Reg) : reg (setDt b s) r = reg s r := rfl
@[simp] theorem reg_setSt (b : Byte) (s : State) (r : Reg) : reg (setSt b s) r = reg s r := rfl
@[simp] theorem reg_setDisp (b : Display) (s : State) (r : Reg) : reg (setDisp b s) r = reg s r := rfl
@[simp] theorem reg_setKey (b : Vector Bool Config.nKeys) (s : State) (r : Reg) : reg (setKey b s) r = reg s r := rfl
@[simp] theorem reg_setMem (b : Memory) (s : State) (r : Reg) : reg (setMem b s) r = reg s r := rfl
@[simp] theorem reg_setBo (b : ByteOrder) (s : State) (r : Reg) : reg (setBo b s) r = reg s r := rfl
@[simp] theorem reg_setDraws (b : Nat) (s : State) (r : Reg) : reg (setDraws b s) r = reg s r := rfl
@[simp] theorem reg_writeByte (a : Nat) (b : Byte) (s : State) (r : Reg) : reg (writeByte a b s) r = reg s r := rfl
@[simp] theorem reg_push (b : Word) (s : State) (r : Reg) : reg (push b s) r = reg s r := rfl
@[simp] theorem reg_advancePc (s : State) (r : Reg) : reg (advancePc s) r = reg s r := rfl
@[simp] theorem reg_countDraw (s : State) (r : Reg) : reg (countDraw s) r = reg s r := rfl

/-- Registers that read alike are the same register file. -/
theorem v_ext {s t : State} (h : ∀ r, reg t r = reg s r) : t.v = s.v := by
  ext k hk : 1
  have := h (BitVec.ofNat 4 k)
  simpa [reg, Nat.mod_eq_of_lt (show k < 16 from hk)] using this

/-! Memory accesses (20_memory.md R54, R60). -/

@[simp] theorem readByte_writeByte (a q : Nat) (b : Byte) (s : State) :
    readByte (writeByte a b s) q = if q = a then b else readByte s q := Memory.read_write s.mem a q b

/-- A read sees the memory only. -/
theorem readByte_of_mem {s t : State} (h : t.mem = s.mem) (a : Nat) : readByte t a = readByte s a := by
  simp [readByte, h]

/-- Writing inside the memory keeps its canonical form. -/
theorem writeByte_wf {s : State} (h : s.mem.wf) {a : Nat} (ha : a < Config.memSize) (b : Byte) :
    (writeByte a b s).mem.wf := Memory.write_wf h ha b

/-- The range check: on, or `Undefined(MemRange)` (20_memory.md R57). -/
theorem withinMemory_next_iff {first count : Nat} {u t : State} :
    withinMemory first count u = .next t ↔ inMemory first count = true ∧ u = t := by
  unfold withinMemory; split <;> simp [*]

theorem withinMemory_cases (first count : Nat) (u : State) :
    (inMemory first count = true ∧ withinMemory first count u = .next u) ∨
      (inMemory first count = false ∧ withinMemory first count u = .fault .memRange) := by
  unfold withinMemory; split <;> simp_all

@[simp] theorem inMemory_iff (first count : Nat) :
    inMemory first count = true ↔ count = 0 ∨ first + count ≤ 4096 := by simp [inMemory]

theorem inMemory_false_iff (first count : Nat) :
    inMemory first count = false ↔ 0 < count ∧ 4096 < first + count := by
  simp [inMemory, Nat.pos_iff_ne_zero]

/-! Block writes (20_memory.md R66). -/

/-- A block write changes the memory only. -/
theorem writeBytes_eq_setMem (bs : List Byte) : ∀ (a : Nat) (s : State), writeBytes a bs s = setMem (writeBytes a bs s).mem s := by
  induction bs with
  | nil => intro a s; rfl
  | cons b bs ih => intro a s; rw [writeBytes, ih (a + 1)]; rfl

/-- A block write puts its bytes at consecutive addresses and changes no other. -/
theorem readByte_writeBytes (bs : List Byte) : ∀ (a q : Nat) (s : State),
    readByte (writeBytes a bs s) q = if h : a ≤ q ∧ q - a < bs.length then bs[q - a] else readByte s q := by
  induction bs with
  | nil => intro a q s; simp [writeBytes]
  | cons b bs ih =>
    intro a q s
    rw [writeBytes, ih, readByte_writeByte]
    by_cases h0 : q = a
    · subst h0; simp
    · by_cases h1 : a ≤ q ∧ q - a < bs.length + 1
      · have h2 : a + 1 ≤ q ∧ q - (a + 1) < bs.length := by omega
        have h3 : q - a = (q - (a + 1)) + 1 := by omega
        simp [h1, h2, h3]
      · have h2 : ¬ (a + 1 ≤ q ∧ q - (a + 1) < bs.length) := by omega
        rw [dif_neg h2, if_neg h0, dif_neg (by simpa using h1)]

/-- A block write inside the memory keeps its canonical form. -/
theorem writeBytes_wf (bs : List Byte) : ∀ (a : Nat) (s : State), s.mem.wf → a + bs.length ≤ Config.memSize →
    (writeBytes a bs s).mem.wf := by
  induction bs with
  | nil => intro a s h _; exact h
  | cons b bs ih =>
    intro a s h ha
    simp only [List.length_cons] at ha
    exact ih _ _ (writeByte_wf h (by omega) b) (by omega)

/-! Bulk transfers (43_index_memory.md R144, R145). -/

theorem storeRegs_succ (base n : Nat) (s : State) : storeRegs base (n + 1) s =
    writeByte (base + n) (reg (storeRegs base n s) (BitVec.ofNat 4 n)) (storeRegs base n s) := rfl

/-- Storing registers changes the memory only. -/
theorem storeRegs_eq_setMem (base count : Nat) (s : State) : storeRegs base count s = setMem (storeRegs base count s).mem s := by
  induction count with
  | zero => rfl
  | succ n ih =>
    rw [storeRegs_succ]
    generalize storeRegs base n s = t at ih
    rw [ih]
    rfl

theorem reg_storeRegs (base count : Nat) (s : State) (r : Reg) : reg (storeRegs base count s) r = reg s r := by
  rw [storeRegs_eq_setMem]; rfl

/-- Storing `count` registers puts `V[k]` at `base + k` and changes no other byte. -/
theorem readByte_storeRegs (base count q : Nat) (s : State) : readByte (storeRegs base count s) q =
    if base ≤ q ∧ q < base + count then reg s (BitVec.ofNat 4 (q - base)) else readByte s q := by
  induction count with
  | zero => rw [if_neg (by omega)]; rfl
  | succ n ih =>
    rw [storeRegs_succ, readByte_writeByte, reg_storeRegs, ih]
    by_cases h0 : q = base + n
    · subst h0; simp
    · by_cases h1 : base ≤ q ∧ q < base + n
      · rw [if_neg h0, if_pos h1, if_pos (by omega)]
      · rw [if_neg h0, if_neg h1, if_neg (by omega)]

theorem storeRegs_wf {s : State} (h : s.mem.wf) {base count : Nat} (fits : base + count ≤ Config.memSize) :
    (storeRegs base count s).mem.wf := by
  induction count with
  | zero => exact h
  | succ n ih => exact writeByte_wf (ih (by omega)) (by omega) _

theorem loadRegs_succ (base n : Nat) (s : State) : loadRegs base (n + 1) s =
    setReg (BitVec.ofNat 4 n) (readByte (loadRegs base n s) (base + n)) (loadRegs base n s) := rfl

/-- Loading registers changes the registers only. -/
theorem loadRegs_eq_setV (base count : Nat) (s : State) : loadRegs base count s = setV (loadRegs base count s).v s := by
  induction count with
  | zero => rfl
  | succ n ih =>
    rw [loadRegs_succ]
    generalize loadRegs base n s = t at ih
    rw [ih]
    rfl

theorem mem_loadRegs (base count : Nat) (s : State) : (loadRegs base count s).mem = s.mem := by
  rw [loadRegs_eq_setV]; rfl

/-- Loading `count` registers takes `V[k]` from `base + k` and changes no register above. -/
theorem reg_loadRegs {base count : Nat} (small : count ≤ 16) (s : State) (r : Reg) : reg (loadRegs base count s) r =
    if r.toNat < count then readByte s (base + r.toNat) else reg s r := by
  induction count with
  | zero => simp [loadRegs]
  | succ n ih =>
    have hn : (BitVec.ofNat 4 n).toNat = n := by simp [Nat.mod_eq_of_lt (show n < 16 by omega)]
    rw [loadRegs_succ, reg_setReg, readByte_of_mem (mem_loadRegs base n s), ih (by omega)]
    by_cases h0 : r = BitVec.ofNat 4 n
    · subst h0; simp [Nat.mod_eq_of_lt (show n < 16 by omega)]
    · have : r.toNat ≠ n := fun e => h0 (BitVec.eq_of_toNat_eq (by rw [hn, e]))
      by_cases h1 : r.toNat < n
      · rw [if_neg h0, if_pos h1, if_pos (by omega)]
      · rw [if_neg h0, if_neg h1, if_neg (by omega)]

/-! The skip (41_skip.md R114). -/

/-- A skip changes `pc` only, by 2 or not at all. -/
theorem skipIf_eq (c : Bool) (s : State) : skipIf c s = setPc (if c then s.pc + 2 else s.pc) s := by
  cases c <;> rfl

/-! The fetch (20_memory.md R55, R57). -/

/-- A word is read exactly when both its bytes lie in memory, joined by the byte order. -/
theorem readWord_eq (s : State) (a : Nat) : readWord s a =
    if a ≤ 4094 then some (joinBytes s.bo (readByte s a) (readByte s (a + 1))) else none := by
  unfold readWord
  by_cases h : a ≤ 4094
  · rw [if_pos ((inMemory_iff _ _).mpr (by omega)), if_pos h]
  · rw [if_neg (by simp; omega), if_neg h]

/-- A split word joins to itself. -/
theorem joinBytes_splitWord (bo : ByteOrder) (op : Word) :
    ∃ b0 b1, splitWord bo op = [b0, b1] ∧ joinBytes bo b0 b1 = op := by
  have h : (op.extractLsb' 8 8 ++ op.extractLsb' 0 8 : BitVec 16) = op := by
    ext k hk
    simp only [BitVec.getElem_append, BitVec.getElem_extractLsb']
    split
    · simp [BitVec.getLsbD_eq_getElem hk]
    · rw [show 8 + (k - 8) = k by omega, BitVec.getLsbD_eq_getElem hk]
  cases bo
  · exact ⟨_, _, rfl, h⟩
  · exact ⟨_, _, rfl, h⟩

end Sys2Proof.Machine
end

