-- ==== Sys2Proof/Laws/Display.lean ====
section
/-! SUPPORT. The display: one cell written, the clear display, and what drawing a sprite does (44_display.md R151 to
R153). -/

namespace Sys2Proof.Machine

theorem cellOf_setCellOf (px qx : Fin Config.dispW) (py qy : Fin Config.dispH) (b : Bool) (d : Display) :
    cellOf (setCellOf px py b d) qx qy = if qx = px ∧ qy = py then b else cellOf d qx qy := by
  unfold cellOf setCellOf
  by_cases hy : qy = py
  · subst hy
    by_cases hx : qx = px
    · subst hx; simp
    · have : px.1 ≠ qx.1 := fun e => hx (Fin.ext e.symm)
      simp [hx, Vector.getElem_set_ne, this]
  · have : py.1 ≠ qy.1 := fun e => hy (Fin.ext e.symm)
    simp [hy, Vector.getElem_set_ne, this]

@[simp] theorem cellOf_clearDisplay (px : Fin Config.dispW) (py : Fin Config.dispH) : cellOf clearDisplay px py = false := by
  simp [cellOf, clearDisplay]

/-- Displays that show alike are the same display. -/
theorem display_ext {d e : Display} (h : ∀ px py, cellOf e px py = cellOf d px py) : e = d := by
  ext y hy x hx
  exact h ⟨x, hx⟩ ⟨y, hy⟩

/-- `c` is the display `d` with exactly the cells of `S` toggled, and its flag says whether one of them was on. -/
def Toggled (d : Display) (S : Fin Config.dispW → Fin Config.dispH → Prop) (c : Canvas) : Prop :=
  (∀ px py, (S px py → cellOf c.1 px py = !cellOf d px py) ∧ (¬ S px py → cellOf c.1 px py = cellOf d px py)) ∧
    (c.2 = true ↔ ∃ px py, S px py ∧ cellOf d px py = true)

theorem Toggled.congr {d : Display} {S T : Fin Config.dispW → Fin Config.dispH → Prop} {c : Canvas} (h : Toggled d S c)
    (same : ∀ px py, S px py ↔ T px py) : Toggled d T c := by
  have : S = T := by funext px py; exact propext (same px py)
  exact this ▸ h

/-- Toggling a cell outside `S` adds it to `S`. -/
theorem Toggled.toggleCell {d : Display} {S : Fin Config.dispW → Fin Config.dispH → Prop} {c : Canvas}
    (h : Toggled d S c) {px : Fin Config.dispW} {py : Fin Config.dispH} (new : ¬ S px py) :
    Toggled d (fun qx qy => S qx qy ∨ (qx = px ∧ qy = py)) (toggleCell px py c) := by
  have old : cellOf c.1 px py = cellOf d px py := (h.1 px py).2 new
  refine ⟨fun qx qy => ?_, ?_⟩
  · simp only [Machine.toggleCell, cellOf_setCellOf]
    by_cases hq : qx = px ∧ qy = py
    · obtain ⟨rfl, rfl⟩ := hq
      simp [old]
    · simp only [hq, or_false, if_false]
      exact h.1 qx qy
  · simp only [Machine.toggleCell, Bool.or_eq_true, h.2, old]
    constructor
    · rintro (⟨qx, qy, hs, hd⟩ | hd)
      · exact ⟨qx, qy, .inl hs, hd⟩
      · exact ⟨px, py, .inr ⟨rfl, rfl⟩, hd⟩
    · rintro ⟨qx, qy, hs | ⟨rfl, rfl⟩, hd⟩
      · exact .inl ⟨qx, qy, hs, hd⟩
      · exact .inr hd

theorem spriteColumn_inj {vx : Byte} {a b : Nat} (ha : a < 8) (hb : b < 8) (h : spriteColumn vx a = spriteColumn vx b) :
    a = b := by
  have : (vx.toNat + a) % 64 = (vx.toNat + b) % 64 := congrArg Fin.val h
  omega

theorem spriteRow_inj {vy : Byte} {a b : Nat} (ha : a < 32) (hb : b < 32) (h : spriteRow vy a = spriteRow vy b) :
    a = b := by
  have : (vy.toNat + a) % 32 = (vy.toNat + b) % 32 := congrArg Fin.val h
  omega

/-- The cells that the first `n` rows of a sprite have a set bit for. -/
def Covered (vx vy : Byte) (rows : Nat → Byte) (n : Nat) (px : Fin Config.dispW) (py : Fin Config.dispH) : Prop :=
  ∃ row < n, ∃ col < 8, spriteBit (rows row) col = true ∧ px = spriteColumn vx col ∧ py = spriteRow vy row

/-- The first `k` columns of one row. -/
theorem Toggled.drawColumns {d : Display} {vx vy : Byte} {rows : Nat → Byte} {row : Nat} (hrow : row < 32) {c : Canvas}
    (h : Toggled d (Covered vx vy rows row) c) (k : Nat) (hk : k ≤ 8) :
    Toggled d (fun px py => Covered vx vy rows row px py ∨
        ∃ col < k, spriteBit (rows row) col = true ∧ px = spriteColumn vx col ∧ py = spriteRow vy row)
      (forUpTo (fun col c => if spriteBit (rows row) col then
        Machine.toggleCell (spriteColumn vx col) (spriteRow vy row) c else c) k c) := by
  induction k with
  | zero => exact h.congr fun px py => by simp
  | succ k ih =>
    have ih := ih (by omega)
    rw [forUpTo_succ]
    by_cases hb : spriteBit (rows row) k = true
    · rw [if_pos hb]
      refine (ih.toggleCell (px := spriteColumn vx k) (py := spriteRow vy row) ?_).congr fun px py => ?_
      · rintro (⟨r, hr, col, hcol, -, hx, hy⟩ | ⟨col, hcol, -, hx, -⟩)
        · have := spriteRow_inj hrow (by omega) hy; omega
        · have := spriteColumn_inj (by omega) (by omega) hx; omega
      · constructor
        · rintro ((h | ⟨col, hcol, h⟩) | ⟨hx, hy⟩)
          · exact .inl h
          · exact .inr ⟨col, by omega, h⟩
          · exact .inr ⟨k, by omega, hb, hx, hy⟩
        · rintro (h | ⟨col, hcol, hbit, hx, hy⟩)
          · exact .inl (.inl h)
          · by_cases e : col = k
            · subst e; exact .inr ⟨hx, hy⟩
            · exact .inl (.inr ⟨col, by omega, hbit, hx, hy⟩)
    · rw [if_neg hb]
      refine ih.congr fun px py => or_congr_right ⟨?_, ?_⟩
      · rintro ⟨col, hcol, h⟩; exact ⟨col, by omega, h⟩
      · rintro ⟨col, hcol, hbit, h⟩
        have : col ≠ k := by rintro rfl; exact hb hbit
        exact ⟨col, by omega, hbit, h⟩

/-- Drawing a sprite of at most 32 rows toggles exactly the cells it covers, each once, and the collision is that one of
them was on before (44_display.md R153). -/
theorem drawSprite_toggled (d : Display) (vx vy : Byte) (rows : Nat → Byte) (n : Nat) (hn : n ≤ 32) :
    Toggled d (Covered vx vy rows n) (drawSprite vx vy rows n (d, false)) := by
  induction n with
  | zero => exact ⟨fun px py => by simp [Covered, drawSprite], by simp [Covered, drawSprite]⟩
  | succ n ih =>
    refine ((ih (by omega)).drawColumns (row := n) (by omega) 8 le_rfl).congr fun px py => ?_
    constructor
    · rintro (⟨r, hr, h⟩ | h)
      · exact ⟨r, by omega, h⟩
      · exact ⟨n, by omega, h⟩
    · rintro ⟨r, hr, h⟩
      by_cases e : r = n
      · subst e; exact .inr h
      · exact .inl ⟨r, by omega, h⟩

end Sys2Proof.Machine
end

