-- ==== Sys2Proof/Laws/Frame.lean ====
section
/-! SUPPORT. Frames: what each update and each shared operation leaves unchanged, and how frames compose. -/

namespace Sys2Proof.Machine

theorem keeps_refl (s : State) (p : Part) : keeps s s p := by cases p <;> simp [keeps]

theorem keeps_trans {s t u : State} {p : Part} (h : keeps s t p) (k : keeps t u p) : keeps s u p := by
  cases p <;> simp_all [keeps]

theorem KeepsAllBut.refl (ps : List Part) (s : State) : KeepsAllBut ps s s := fun p _ => keeps_refl s p

theorem KeepsAllBut.trans {ps : List Part} {s t u : State} (h : KeepsAllBut ps s t) (k : KeepsAllBut ps t u) :
    KeepsAllBut ps s u := fun p hp => keeps_trans (h p hp) (k p hp)

theorem KeepsAllBut.mono {ps qs : List Part} {s t : State} (h : KeepsAllBut ps s t) (sub : ps ⊆ qs) :
    KeepsAllBut qs s t := fun p hp => h p fun hq => hp (sub hq)

theorem keepsAllBut_setV (b : Vector Byte Config.nReg) (s : State) : KeepsAllBut [.regs] s (setV b s) := by
  intro p hp; cases p <;> first | exact absurd (List.mem_singleton.mpr rfl) hp | simp [keeps, cell, keyFlag, readByte]

theorem keepsAllBut_setI (b : Word) (s : State) : KeepsAllBut [.index] s (setI b s) := by
  intro p hp; cases p <;> first | exact absurd (List.mem_singleton.mpr rfl) hp | simp [keeps, reg, cell, keyFlag, readByte]

theorem keepsAllBut_setPc (b : Word) (s : State) : KeepsAllBut [.pc] s (setPc b s) := by
  intro p hp; cases p <;> first | exact absurd (List.mem_singleton.mpr rfl) hp | simp [keeps, reg, cell, keyFlag, readByte]

theorem keepsAllBut_setStack (b : List Word) (s : State) : KeepsAllBut [.stack] s (setStack b s) := by
  intro p hp; cases p <;> first | exact absurd (List.mem_singleton.mpr rfl) hp | simp [keeps, reg, cell, keyFlag, readByte]

theorem keepsAllBut_setDt (b : Byte) (s : State) : KeepsAllBut [.delay] s (setDt b s) := by
  intro p hp; cases p <;> first | exact absurd (List.mem_singleton.mpr rfl) hp | simp [keeps, reg, cell, keyFlag, readByte]

theorem keepsAllBut_setSt (b : Byte) (s : State) : KeepsAllBut [.sound] s (setSt b s) := by
  intro p hp; cases p <;> first | exact absurd (List.mem_singleton.mpr rfl) hp | simp [keeps, reg, cell, keyFlag, readByte]

theorem keepsAllBut_setDisp (b : Display) (s : State) : KeepsAllBut [.display] s (setDisp b s) := by
  intro p hp; cases p <;> first | exact absurd (List.mem_singleton.mpr rfl) hp | simp [keeps, reg, keyFlag, readByte]

theorem keepsAllBut_setKey (b : Vector Bool Config.nKeys) (s : State) : KeepsAllBut [.keys] s (setKey b s) := by
  intro p hp; cases p <;> first | exact absurd (List.mem_singleton.mpr rfl) hp | simp [keeps, reg, cell, readByte]

theorem keepsAllBut_setMem (b : Memory) (s : State) : KeepsAllBut [.memory] s (setMem b s) := by
  intro p hp; cases p <;> first | exact absurd (List.mem_singleton.mpr rfl) hp | simp [keeps, reg, cell, keyFlag]

theorem keepsAllBut_setBo (b : ByteOrder) (s : State) : KeepsAllBut [.mode] s (setBo b s) := by
  intro p hp; cases p <;> first | exact absurd (List.mem_singleton.mpr rfl) hp | simp [keeps, reg, cell, keyFlag, readByte]

theorem keepsAllBut_setDraws (b : Nat) (s : State) : KeepsAllBut [.draws] s (setDraws b s) := by
  intro p hp; cases p <;> first | exact absurd (List.mem_singleton.mpr rfl) hp | simp [keeps, reg, cell, keyFlag, readByte]

theorem keepsAllBut_setReg (r : Reg) (b : Byte) (s : State) : KeepsAllBut [.regs] s (setReg r b s) := keepsAllBut_setV _ s

theorem keepsAllBut_setFlag (c : Bool) (s : State) : KeepsAllBut [.regs] s (setFlag c s) := keepsAllBut_setV _ s

theorem keepsAllBut_advancePc (s : State) : KeepsAllBut [.pc] s (advancePc s) := keepsAllBut_setPc _ s

theorem keepsAllBut_skipIf (c : Bool) (s : State) : KeepsAllBut [.pc] s (skipIf c s) := by
  rw [skipIf_eq]; exact keepsAllBut_setPc _ s

theorem keepsAllBut_push (b : Word) (s : State) : KeepsAllBut [.stack] s (push b s) := keepsAllBut_setStack _ s

theorem keepsAllBut_countDraw (s : State) : KeepsAllBut [.draws] s (countDraw s) := keepsAllBut_setDraws _ s

theorem keepsAllBut_writeBytes (a : Nat) (bs : List Byte) (s : State) : KeepsAllBut [.memory] s (writeBytes a bs s) := by
  rw [writeBytes_eq_setMem]; exact keepsAllBut_setMem _ s

theorem keepsAllBut_storeRegs (base count : Nat) (s : State) : KeepsAllBut [.memory] s (storeRegs base count s) := by
  rw [storeRegs_eq_setMem]; exact keepsAllBut_setMem _ s

theorem keepsAllBut_loadRegs (base count : Nat) (s : State) : KeepsAllBut [.regs] s (loadRegs base count s) := by
  rw [loadRegs_eq_setV]; exact keepsAllBut_setV _ s

end Sys2Proof.Machine
end

