-- ==== Sys2Proof/Laws/Fetch.lean ====
section
/-! SUPPORT. Placing a word where the next step fetches. -/

namespace Sys2Proof.Machine

/-- The fetch finds the word that was placed, wherever a word fits (20_memory.md R55). -/
theorem fetch_placeWord (op : Word) (s : State) (fits : s.pc.toNat ≤ 4094) : fetch (placeWord op s) = some op := by
  have hm : inMemory s.pc.toNat 2 = true := (inMemory_iff _ _).mpr (by omega)
  obtain ⟨b0, b1, hs, hj⟩ := joinBytes_splitWord s.bo op
  have hp : placeWord op s = writeBytes s.pc.toNat [b0, b1] s := by rw [placeWord, if_pos hm, hs]
  have hpc : (placeWord op s).pc = s.pc := by rw [hp]; rfl
  have hbo : (placeWord op s).bo = s.bo := by rw [hp]; rfl
  rw [fetch, readWord_eq, hpc, if_pos fits, hbo, hp, readByte_writeBytes, readByte_writeBytes]
  simp [hj]

/-- Placing a word changes the memory only. -/
theorem keepsAllBut_placeWord (op : Word) (s : State) : KeepsAllBut [.memory] s (placeWord op s) := by
  unfold placeWord
  split
  · exact keepsAllBut_writeBytes _ _ s
  · exact KeepsAllBut.refl _ s

end Sys2Proof.Machine
end

