-- ==== Sys2Proof/Laws/Keys.lean ====
section
/-! SUPPORT. Which key a register selects, and which key the scan of LD_VX_K finds. -/

namespace Sys2Proof.Machine

/-- A register's value selects the key of that number, and none above 15 (45_keys_timers.md R166). -/
theorem selectedKey_eq_some_iff (b : Byte) (k : Fin Config.nKeys) : selectedKey b = some k ↔ b.toNat = k.1 := by
  unfold selectedKey
  have hk := k.2
  split
  · simp [Fin.ext_iff]
  · constructor
    · intro h; cases h
    · intro h; omega

theorem selectedKey_eq_none_iff (b : Byte) : selectedKey b = none ↔ 15 < b.toNat := by
  unfold selectedKey
  split
  · rename_i h
    have h : b.toNat < 16 := h
    simp; omega
  · rename_i h
    have h : ¬ b.toNat < 16 := h
    simp; omega

/-- The scan finds a key exactly when it is pressed and no lower one is (45_keys_timers.md R163). -/
theorem firstPressed_eq_some (s : State) (k : Fin Config.nKeys) (h : keyFlag s k = true)
    (least : ∀ j : Fin Config.nKeys, j.1 < k.1 → keyFlag s j = false) : firstPressed s = some k.1 := by
  rw [firstPressed, List.findIdx?_eq_some_iff_getElem]
  refine ⟨by simp, by simpa [keyFlag] using h, fun j hj => ?_⟩
  simpa [keyFlag] using least ⟨j, by omega⟩ hj

/-- The scan finds none exactly when no key is pressed (45_keys_timers.md R163). -/
theorem firstPressed_eq_none_iff (s : State) : firstPressed s = none ↔ ∀ j, keyFlag s j = false := by
  rw [firstPressed, List.findIdx?_eq_none_iff]
  constructor
  · intro h j
    have := h (s.key[j.1]) (by simp)
    simpa [keyFlag] using this
  · intro h b hb
    obtain ⟨j, hj, rfl⟩ := List.getElem_of_mem hb
    simpa [keyFlag] using h ⟨j, by simpa using hj⟩

end Sys2Proof.Machine
end

