-- ==== Sys2Proof/Laws/PerInstr.lean ====
section
/-! SUPPORT. Per instruction: its word is legal by the table of 30_encoding.md R77. -/

namespace Sys2Proof.Laws

/-- The instruction's word is none of the illegal opcodes of 30_encoding.md R77. -/
def Legal.Statement (i : Instr) : Prop := WellFormed.legalWord (encode i) = true

/-- A word whose family has no illegal opcode (30_encoding.md R77). -/
theorem legalWord_of_family {op : Word} (f : Nat) (low : Nat) (h : op.toNat = f * 4096 + low) (hlow : low < 4096)
    (hf : f ∈ [1, 2, 3, 4, 6, 7, 10, 11, 12, 13]) : WellFormed.legalWord op = true := by
  have hd : op.toNat / 4096 = f := by omega
  simp only [WellFormed.legalWord, hd]
  fin_cases hf <;> rfl

/-- A word of the families 5 and 9, whose low nibble is 0 (30_encoding.md R77). -/
theorem legalWord_of_zero_nibble {op : Word} (f : Nat) (hi : Nat) (h : op.toNat = f * 4096 + hi * 16) (hhi : hi < 256)
    (hf : f = 5 ∨ f = 9) : WellFormed.legalWord op = true := by
  have hd : op.toNat / 4096 = f := by omega
  have hn : op.toNat % 16 = 0 := by omega
  rcases hf with rfl | rfl <;> simp [WellFormed.legalWord, hd, hn]

/-- A word of family 8, by its low nibble (30_encoding.md R77). -/
theorem legalWord_of_family8 {op : Word} (hi n : Nat) (h : op.toNat = 8 * 4096 + hi * 16 + n) (hhi : hi < 256)
    (hn : n ∈ [0, 1, 2, 3, 4, 5, 6, 7, 14]) : WellFormed.legalWord op = true := by
  have hlt : n < 16 := by fin_cases hn <;> omega
  have hd : op.toNat / 4096 = 8 := by omega
  have hm : op.toNat % 16 = n := by omega
  simp only [WellFormed.legalWord, hd, hm]
  fin_cases hn <;> rfl

/-- A word of the families E and F, by its low byte (30_encoding.md R77). -/
theorem legalWord_of_low_byte {op : Word} (f x nn : Nat) (h : op.toNat = f * 4096 + x * 256 + nn) (hx : x < 16)
    (hnn : (f, nn) ∈ [(14, 0x9E), (14, 0xA1), (15, 0x07), (15, 0x0A), (15, 0x15), (15, 0x18), (15, 0x1E), (15, 0x29),
      (15, 0x33), (15, 0x55), (15, 0x65)]) : WellFormed.legalWord op = true := by
  have hlt : nn < 256 ∧ f < 16 := by fin_cases hnn <;> exact ⟨by omega, by omega⟩
  have hd : op.toNat / 4096 = f := by omega
  have hm : op.toNat % 256 = nn := by omega
  simp only [WellFormed.legalWord, hd, hm]
  fin_cases hnn <;> rfl

theorem Legal.nop : Legal.Statement (.nop) :=
  rfl

theorem Legal.cls : Legal.Statement (.cls) :=
  rfl

theorem Legal.ret : Legal.Statement (.ret) :=
  rfl

theorem Legal.jp (nnn : Addr12) : Legal.Statement (.jp nnn) :=
  legalWord_of_family 1 nnn.toNat (toNat_encodeA 1#4 nnn) nnn.isLt (by decide)

theorem Legal.call (nnn : Addr12) : Legal.Statement (.call nnn) :=
  legalWord_of_family 2 nnn.toNat (toNat_encodeA 2#4 nnn) nnn.isLt (by decide)

theorem Legal.seImm (x : Reg) (nn : Byte) : Legal.Statement (.seImm x nn) :=
  legalWord_of_family 3 (x.toNat * 256 + nn.toNat) ((toNat_encodeXI 3#4 x nn).trans (Nat.add_assoc _ _ _))
    (by have := x.isLt; have := nn.isLt; omega) (by decide)

theorem Legal.sneImm (x : Reg) (nn : Byte) : Legal.Statement (.sneImm x nn) :=
  legalWord_of_family 4 (x.toNat * 256 + nn.toNat) ((toNat_encodeXI 4#4 x nn).trans (Nat.add_assoc _ _ _))
    (by have := x.isLt; have := nn.isLt; omega) (by decide)

theorem Legal.seReg (x : Reg) (y : Reg) : Legal.Statement (.seReg x y) :=
  legalWord_of_zero_nibble 5 (x.toNat * 16 + y.toNat)
    (by have := toNat_encodeXYN 5#4 x y 0#4; simp only [encode, this]; simp; omega)
    (by have := x.isLt; have := y.isLt; omega) (by decide)

theorem Legal.ldImm (x : Reg) (nn : Byte) : Legal.Statement (.ldImm x nn) :=
  legalWord_of_family 6 (x.toNat * 256 + nn.toNat) ((toNat_encodeXI 6#4 x nn).trans (Nat.add_assoc _ _ _))
    (by have := x.isLt; have := nn.isLt; omega) (by decide)

theorem Legal.addImm (x : Reg) (nn : Byte) : Legal.Statement (.addImm x nn) :=
  legalWord_of_family 7 (x.toNat * 256 + nn.toNat) ((toNat_encodeXI 7#4 x nn).trans (Nat.add_assoc _ _ _))
    (by have := x.isLt; have := nn.isLt; omega) (by decide)

theorem Legal.ldReg (x : Reg) (y : Reg) : Legal.Statement (.ldReg x y) :=
  legalWord_of_family8 (x.toNat * 16 + y.toNat) 0
    (by have := toNat_encodeXYN 8#4 x y 0#4; simp only [encode, this]; simp; omega)
    (by have := x.isLt; have := y.isLt; omega) (by decide)

theorem Legal.orReg (x : Reg) (y : Reg) : Legal.Statement (.orReg x y) :=
  legalWord_of_family8 (x.toNat * 16 + y.toNat) 1
    (by have := toNat_encodeXYN 8#4 x y 1#4; simp only [encode, this]; simp; omega)
    (by have := x.isLt; have := y.isLt; omega) (by decide)

theorem Legal.andReg (x : Reg) (y : Reg) : Legal.Statement (.andReg x y) :=
  legalWord_of_family8 (x.toNat * 16 + y.toNat) 2
    (by have := toNat_encodeXYN 8#4 x y 2#4; simp only [encode, this]; simp; omega)
    (by have := x.isLt; have := y.isLt; omega) (by decide)

theorem Legal.xorReg (x : Reg) (y : Reg) : Legal.Statement (.xorReg x y) :=
  legalWord_of_family8 (x.toNat * 16 + y.toNat) 3
    (by have := toNat_encodeXYN 8#4 x y 3#4; simp only [encode, this]; simp; omega)
    (by have := x.isLt; have := y.isLt; omega) (by decide)

theorem Legal.addReg (x : Reg) (y : Reg) : Legal.Statement (.addReg x y) :=
  legalWord_of_family8 (x.toNat * 16 + y.toNat) 4
    (by have := toNat_encodeXYN 8#4 x y 4#4; simp only [encode, this]; simp; omega)
    (by have := x.isLt; have := y.isLt; omega) (by decide)

theorem Legal.subReg (x : Reg) (y : Reg) : Legal.Statement (.subReg x y) :=
  legalWord_of_family8 (x.toNat * 16 + y.toNat) 5
    (by have := toNat_encodeXYN 8#4 x y 5#4; simp only [encode, this]; simp; omega)
    (by have := x.isLt; have := y.isLt; omega) (by decide)

theorem Legal.shr (x : Reg) (y : Reg) : Legal.Statement (.shr x y) :=
  legalWord_of_family8 (x.toNat * 16 + y.toNat) 6
    (by have := toNat_encodeXYN 8#4 x y 6#4; simp only [encode, this]; simp; omega)
    (by have := x.isLt; have := y.isLt; omega) (by decide)

theorem Legal.subnReg (x : Reg) (y : Reg) : Legal.Statement (.subnReg x y) :=
  legalWord_of_family8 (x.toNat * 16 + y.toNat) 7
    (by have := toNat_encodeXYN 8#4 x y 7#4; simp only [encode, this]; simp; omega)
    (by have := x.isLt; have := y.isLt; omega) (by decide)

theorem Legal.shl (x : Reg) (y : Reg) : Legal.Statement (.shl x y) :=
  legalWord_of_family8 (x.toNat * 16 + y.toNat) 14
    (by have := toNat_encodeXYN 8#4 x y 14#4; simp only [encode, this]; simp; omega)
    (by have := x.isLt; have := y.isLt; omega) (by decide)

theorem Legal.sneReg (x : Reg) (y : Reg) : Legal.Statement (.sneReg x y) :=
  legalWord_of_zero_nibble 9 (x.toNat * 16 + y.toNat)
    (by have := toNat_encodeXYN 9#4 x y 0#4; simp only [encode, this]; simp; omega)
    (by have := x.isLt; have := y.isLt; omega) (by decide)

theorem Legal.ldI (nnn : Addr12) : Legal.Statement (.ldI nnn) :=
  legalWord_of_family 10 nnn.toNat (toNat_encodeA 10#4 nnn) nnn.isLt (by decide)

theorem Legal.jpV0 (nnn : Addr12) : Legal.Statement (.jpV0 nnn) :=
  legalWord_of_family 11 nnn.toNat (toNat_encodeA 11#4 nnn) nnn.isLt (by decide)

theorem Legal.rnd (x : Reg) (nn : Byte) : Legal.Statement (.rnd x nn) :=
  legalWord_of_family 12 (x.toNat * 256 + nn.toNat) ((toNat_encodeXI 12#4 x nn).trans (Nat.add_assoc _ _ _))
    (by have := x.isLt; have := nn.isLt; omega) (by decide)

theorem Legal.drw (x : Reg) (y : Reg) (n : Nibble) : Legal.Statement (.drw x y n) :=
  legalWord_of_family 13 (x.toNat * 256 + y.toNat * 16 + n.toNat)
    (by have := toNat_encodeXYN 13#4 x y n; simp only [encode, this]; simp; omega)
    (by have := x.isLt; have := y.isLt; have := n.isLt; omega) (by decide)

theorem Legal.skp (x : Reg) : Legal.Statement (.skp x) :=
  legalWord_of_low_byte 14 x.toNat 158 (toNat_encodeXI 14#4 x 158#8) x.isLt (by decide)

theorem Legal.sknp (x : Reg) : Legal.Statement (.sknp x) :=
  legalWord_of_low_byte 14 x.toNat 161 (toNat_encodeXI 14#4 x 161#8) x.isLt (by decide)

theorem Legal.ldVxDt (x : Reg) : Legal.Statement (.ldVxDt x) :=
  legalWord_of_low_byte 15 x.toNat 7 (toNat_encodeXI 15#4 x 7#8) x.isLt (by decide)

theorem Legal.ldVxK (x : Reg) : Legal.Statement (.ldVxK x) :=
  legalWord_of_low_byte 15 x.toNat 10 (toNat_encodeXI 15#4 x 10#8) x.isLt (by decide)

theorem Legal.ldDtVx (x : Reg) : Legal.Statement (.ldDtVx x) :=
  legalWord_of_low_byte 15 x.toNat 21 (toNat_encodeXI 15#4 x 21#8) x.isLt (by decide)

theorem Legal.ldStVx (x : Reg) : Legal.Statement (.ldStVx x) :=
  legalWord_of_low_byte 15 x.toNat 24 (toNat_encodeXI 15#4 x 24#8) x.isLt (by decide)

theorem Legal.addI (x : Reg) : Legal.Statement (.addI x) :=
  legalWord_of_low_byte 15 x.toNat 30 (toNat_encodeXI 15#4 x 30#8) x.isLt (by decide)

theorem Legal.ldF (x : Reg) : Legal.Statement (.ldF x) :=
  legalWord_of_low_byte 15 x.toNat 41 (toNat_encodeXI 15#4 x 41#8) x.isLt (by decide)

theorem Legal.ldB (x : Reg) : Legal.Statement (.ldB x) :=
  legalWord_of_low_byte 15 x.toNat 51 (toNat_encodeXI 15#4 x 51#8) x.isLt (by decide)

theorem Legal.stRegs (x : Reg) : Legal.Statement (.stRegs x) :=
  legalWord_of_low_byte 15 x.toNat 85 (toNat_encodeXI 15#4 x 85#8) x.isLt (by decide)

theorem Legal.ldRegs (x : Reg) : Legal.Statement (.ldRegs x) :=
  legalWord_of_low_byte 15 x.toNat 101 (toNat_encodeXI 15#4 x 101#8) x.isLt (by decide)

end Sys2Proof.Laws
end

