-- ==== Sys2Proof/Laws/Run.lean ====
section
/-! SUPPORT. Runs of several steps: one step more, and where a run stops. -/

namespace Sys2Proof.Machine

/-- One step more, for any machine. -/
theorem run_succ (M : Host.Core) (k : Nat) (s : M.State) : M.run (k + 1) s =
    match M.step s with
    | .next t => M.run k t
    | .fault f => .fault f
    | .refused r => .refused r := rfl

/-- A run goes on from the next state. -/
theorem run_next {s t : State} (h : step s = .next t) (k : Nat) : Sys2Proof.core.run (k + 1) s = Sys2Proof.core.run k t := by
  have e : Sys2Proof.core.step s = .next t := h
  exact (run_succ Sys2Proof.core k s).trans (by rw [e])

/-- A run stops where a step faults. -/
theorem run_fault {s : State} {f : Fault} (h : step s = .fault f) (k : Nat) : Sys2Proof.core.run (k + 1) s = .fault f := by
  have e : Sys2Proof.core.step s = .fault f := h
  exact (run_succ Sys2Proof.core k s).trans (by rw [e])

/-- A run stops where a step is refused. -/
theorem run_refused {s : State} {r : Refusal} (h : step s = .refused r) (k : Nat) :
    Sys2Proof.core.run (k + 1) s = .refused r := by
  have e : Sys2Proof.core.step s = .refused r := h
  exact (run_succ Sys2Proof.core k s).trans (by rw [e])

/-- A run of `a + b` steps is a run of `b` steps from where a run of `a` steps ends. -/
theorem run_add {s t : State} {a : Nat} (h : Sys2Proof.core.run a s = .next t) (b : Nat) :
    Sys2Proof.core.run (a + b) s = Sys2Proof.core.run b t := by
  induction a generalizing s with
  | zero => cases h; rw [Nat.zero_add]
  | succ a ih =>
    rw [show a + 1 + b = (a + b) + 1 by omega]
    match e : step s with
    | .next u => exact (run_next e _).trans (ih ((run_next e a).symm.trans h))
    | .fault f => cases (run_fault e a).symm.trans h
    | .refused r => cases (run_refused e a).symm.trans h

end Sys2Proof.Machine
end

