-- ==== Sys2Proof/Laws/Session.lean ====
section
/-! SUPPORT. What the host sees of a step, the state a session holds, and what a finished machine is. -/

namespace Sys2Proof.Machine

@[simp] theorem session_state_running (s : State) : (Session.running s).state = s := rfl
@[simp] theorem session_state_over (s : State) : (Session.over s).state = s := rfl

/-- Everything a step can answer the host: it ran, or it was fatal and the run is over (60_exceptions.md R174). -/
theorem stepSeen_cases {s : State} {answer : Answer} {w : Session} {r : Reply} (h : stepSeen s answer = .next (w, r)) :
    (∃ t, answer = .next t ∧ w = .running t ∧ r = .done) ∨
    ∃ f code op a, answer = .fault f ∧ diagnostic f = some (code, op, a) ∧ w = .over (leftByFatal s) ∧
      r = .fatal code op a := by
  unfold stepSeen at h
  split at h
  · cases h; exact .inl ⟨_, rfl, rfl, rfl⟩
  · cases h
  · split at h
    · cases h; exact .inr ⟨_, _, _, _, rfl, ‹_›, rfl, rfl⟩
    · cases h

/-- A finished machine is at a fixed point. -/
theorem finishedAt_fixedAt {a : Word} {s : State} (h : FinishedAt a s) : FixedAt a s := h s.key

/-- The keys do not matter to a finished machine. -/
theorem finishedAt_setKey {a : Word} {s : State} (keys : Vector Bool Config.nKeys) :
    FinishedAt a (setKey keys s) ↔ FinishedAt a s := Iff.rfl

/-- A machine has finished where the instruction it fetches undoes the fetch's advance, whatever the keys. -/
theorem finishedAt_of_exec {a : Word} {s : State} {op : Word} {i : Instr} (hp : s.pc = a) (hf : fetch s = some op)
    (hd : decode op = some i) (hx : ∀ keys, exec i (setKey keys (advancePc s)) = .next (setKey keys s)) :
    FinishedAt a s := by
  refine fun keys => ⟨hp, ?_⟩
  rw [step, show fetch (setKey keys s) = some op from hf]
  simp only [hd]
  exact hx keys

end Sys2Proof.Machine
end

