-- ==== Sys2Proof/Laws/Words.lean ====
section
/-! SUPPORT. The OR-and-shift formulas of 30_encoding.md R86 are the encoder's concatenations. -/

namespace Sys2Proof.Machine

theorem wordXYN_eq (h f : Nibble) (x y : Reg) (n : Nibble) :
    wordXYN (h ++ 0#8 ++ f) x y n = encodeXYN h x y (f ||| n) := by
  apply BitVec.eq_of_getLsbD_eq
  intro k hk
  simp only [wordXYN, encodeXYN, BitVec.getLsbD_append, BitVec.getLsbD_setWidth, BitVec.getLsbD_shiftLeft,
    BitVec.getLsbD_or]
  interval_cases k <;> simp

theorem wordXI_eq (h : Nibble) (f : Byte) (x : Reg) (nn : Byte) :
    wordXI (h ++ 0#4 ++ f) x nn = encodeXI h x (f ||| nn) := by
  apply BitVec.eq_of_getLsbD_eq
  intro k hk
  simp only [wordXI, encodeXI, BitVec.getLsbD_append, BitVec.getLsbD_setWidth, BitVec.getLsbD_shiftLeft,
    BitVec.getLsbD_or]
  interval_cases k <;> simp

theorem wordXF_eq (h : Nibble) (f : Byte) (x : Reg) : wordXF (h ++ 0#4 ++ f) x = encodeXI h x f := by
  have e := wordXI_eq h f x 0
  have z : wordXI (h ++ 0#4 ++ f) x 0 = wordXF (h ++ 0#4 ++ f) x := by simp [wordXI, wordXF]
  rw [← z, e]
  simp

theorem wordA_eq (h : Nibble) (nnn : Addr12) : wordA (h ++ 0#12) nnn = encodeA h nnn := by
  apply BitVec.eq_of_getLsbD_eq
  intro k hk
  simp only [wordA, encodeA, BitVec.getLsbD_append, BitVec.getLsbD_setWidth, BitVec.getLsbD_or]
  interval_cases k <;> simp

end Sys2Proof.Machine
end

