-- ==== Sys2Proof/Tests/Slice0.lean ====
section
/-! SUPPORT. Tests. Every expected result is taken from spec/95_test_vectors.md (CT, SK, AL, IM, DP, KT, TK, FD), from the
worked example of the rule named, or worked out by hand from that rule; none is the model's own answer. -/

namespace Sys2Proof.Tests

open Sys2Proof.Machine

/-! Helpers. -/

/-- The reset state with `f` applied, and the word `w` where the next step fetches. -/
def start (w : Nat) (f : State → State) : State := (f State.reset).withFetchWord 16 w

/-- One step from `start`. -/
def ran (w : Nat) (f : State → State) : Answer := step (start w f)

/-- The answer is a next state with the property. -/
def next (a : Answer) (p : State → Bool) : Bool :=
  match a with
  | .next t => p t
  | .fault _ => false
  | .refused _ => false

/-- The answer is this fault. -/
def faults (a : Answer) (f : Fault) : Bool :=
  match a with
  | .next _ => false
  | .fault g => g = f
  | .refused _ => false

/-- Turn cells on. -/
def light (cells : List (Fin 64 × Fin 32)) (s : State) : State :=
  setDisp (cells.foldl (fun d c => setCellOf c.1 c.2 true d) s.disp) s

/-- The listed cells are on, and as many cells in all are on as are listed. -/
def litExactly (cells : List (Fin 64 × Fin 32)) (t : State) : Bool :=
  cells.all (fun c => cell t c.1 c.2) && (snapshot t).count true == cells.length

/-- Press keys. -/
def press (keys : List (Fin 16)) (s : State) : State :=
  setKey (keys.foldl (fun v k => v.set k.1 true) s.key) s

/-- The bytes from an address on. -/
def bytesAt (s : State) (a : Nat) (bs : List Byte) : Bool :=
  (List.range bs.length).all (fun k => some (readByte s (a + k)) == bs[k]?)

/-! Well-formedness: an ill-formed input for each check, which the check refuses (30_encoding.md R77, 20_memory.md R66,
70_reset_and_hazards.md R194, 60_exceptions.md R185). -/

theorem test_illegal_family_0 : WellFormed.legalWord 0x00E1#16 = false ∧ WellFormed.legalWord 0x0100#16 = false := by decide
theorem test_illegal_family_5 : WellFormed.legalWord 0x5AB1#16 = false ∧ WellFormed.legalWord 0x5AB0#16 = true := by decide
theorem test_illegal_family_8 : WellFormed.legalWord 0x8128#16 = false ∧ WellFormed.legalWord 0x812F#16 = false ∧
    WellFormed.legalWord 0x812E#16 = true := by decide
theorem test_illegal_family_9 : WellFormed.legalWord 0x9AB5#16 = false ∧ WellFormed.legalWord 0x9AB0#16 = true := by decide
theorem test_illegal_family_E : WellFormed.legalWord 0xE19F#16 = false ∧ WellFormed.legalWord 0xE1A1#16 = true := by decide
theorem test_illegal_family_F : WellFormed.legalWord 0xF275#16 = false ∧ WellFormed.legalWord 0xF265#16 = true := by decide
theorem test_block_too_long : WellFormed.blockFits 2 4095 = false ∧ WellFormed.blockFits 1 4095 = true := by decide
theorem test_program_too_long : WellFormed.programFits (List.replicate 3585 0) = false ∧
    WellFormed.programFits (List.replicate 3584 0) = true := by
  simp only [WellFormed.programFits, List.length_replicate]; decide
theorem test_key_index_too_large : WellFormed.keyIndexFits 16 = false ∧ WellFormed.keyIndexFits 15 = true := by decide

/-! Decoding: every constructor, by a word written out bit by bit from 30_encoding.md R73 and R75. -/

theorem test_decode_family_0 : decode 0b0000000000000000#16 = some .nop ∧ decode 0b0000000011100000#16 = some .cls ∧
    decode 0b0000000011101110#16 = some .ret := by decide
theorem test_decode_addresses : decode 0b0001001000110100#16 = some (.jp 0x234#12) ∧
    decode 0b0010101010111100#16 = some (.call 0xABC#12) ∧ decode 0b1010001011110000#16 = some (.ldI 0x2F0#12) ∧
    decode 0b1011001000010000#16 = some (.jpV0 0x210#12) := by decide
theorem test_decode_immediates : decode 0b0011101001000010#16 = some (.seImm 0xA#4 0x42#8) ∧
    decode 0b0100101001000010#16 = some (.sneImm 0xA#4 0x42#8) ∧ decode 0b0110101000101011#16 = some (.ldImm 0xA#4 0x2B#8) ∧
    decode 0b0111001100000001#16 = some (.addImm 3#4 1#8) ∧ decode 0b1100000100001111#16 = some (.rnd 1#4 0x0F#8) := by decide
theorem test_decode_families_5_9 : decode 0b0101101010110000#16 = some (.seReg 0xA#4 0xB#4) ∧
    decode 0b1001101010110000#16 = some (.sneReg 0xA#4 0xB#4) := by decide
theorem test_decode_family_8 : decode 0b1000000100100000#16 = some (.ldReg 1#4 2#4) ∧
    decode 0b1000000100100001#16 = some (.orReg 1#4 2#4) ∧ decode 0b1000000100100010#16 = some (.andReg 1#4 2#4) ∧
    decode 0b1000000100100011#16 = some (.xorReg 1#4 2#4) ∧ decode 0b1000000100100100#16 = some (.addReg 1#4 2#4) ∧
    decode 0b1000000100100101#16 = some (.subReg 1#4 2#4) ∧ decode 0b1000000100100110#16 = some (.shr 1#4 2#4) ∧
    decode 0b1000000100100111#16 = some (.subnReg 1#4 2#4) ∧ decode 0b1000000100101110#16 = some (.shl 1#4 2#4) := by decide
theorem test_decode_draw : decode 0b1101000100100101#16 = some (.drw 1#4 2#4 5#4) := by decide
theorem test_decode_family_E : decode 0b1110000110011110#16 = some (.skp 1#4) ∧
    decode 0b1110000110100001#16 = some (.sknp 1#4) := by decide
theorem test_decode_family_F : decode 0b1111001000000111#16 = some (.ldVxDt 2#4) ∧
    decode 0b1111010100001010#16 = some (.ldVxK 5#4) ∧ decode 0b1111001000010101#16 = some (.ldDtVx 2#4) ∧
    decode 0b1111001000011000#16 = some (.ldStVx 2#4) ∧ decode 0b1111001000011110#16 = some (.addI 2#4) ∧
    decode 0b1111001100101001#16 = some (.ldF 3#4) ∧ decode 0b1111010100110011#16 = some (.ldB 5#4) ∧
    decode 0b1111001001010101#16 = some (.stRegs 2#4) ∧ decode 0b1111000101100101#16 = some (.ldRegs 1#4) := by decide
/-- FD7 and the `Fatal(1, ..)` rows of the vectors. -/
theorem test_illegal_words_refused : ([0x00E1, 0x00EF, 0x0001, 0x0100, 0x0FFF, 0x00FE, 0x5AB1, 0x9AB5, 0x8128, 0x812F, 0xE19F,
    0xF200, 0xF275, 0x0561, 0x5011].map (fun w => decode (BitVec.ofNat 16 w))).all Option.isNone = true := by decide
/-- FD8. -/
theorem test_field_split : fieldH 0xD7A5#16 = 0xD#4 ∧ fieldX 0xD7A5#16 = 7#4 ∧ fieldY 0xD7A5#16 = 0xA#4 ∧
    fieldN 0xD7A5#16 = 5#4 ∧ fieldNN 0xD7A5#16 = 0xA5#8 ∧ fieldNNN 0xD7A5#16 = 0x7A5#12 := by decide
/-- 30_encoding.md R86, its three examples, the words and the bytes. -/
theorem test_encode_examples : encode (.addReg 3#4 4#4) = 0x8344#16 ∧ encode (.drw 1#4 2#4 5#4) = 0xD125#16 ∧
    encode (.ldI 0x2F0#12) = 0xA2F0#16 ∧ splitWord .big 0xA2F0#16 = [0xA2, 0xF0] ∧
    splitWord .little 0xA2F0#16 = [0xF0, 0xA2] := by decide
/-- FD1, FD2, FD3 over bytes, the rest of the bytes given back. -/
theorem test_decode_bytes : decodeBytes .big [0x61, 0x05, 0x12] = .ok (.ldImm 1#4 5#8, [0x12]) ∧
    decodeBytes .little [0x05, 0x61] = .ok (.ldImm 1#4 5#8, []) ∧
    decodeBytes .big [0x05, 0x61] = .error (.unimplementedOpcode 0x0561#16) ∧ decodeBytes .big [0x61] = .error .tooShort :=
  ⟨rfl, rfl, rfl, rfl⟩
theorem test_decode_table_word : decodeTableWord 16 0x8344 = some (.addReg 3#4 4#4) ∧ decodeTableWord 16 0x8128 = none := by
  decide

/-! Control transfer. -/

/-- CT1. -/
theorem test_nop : next (ran 0x0000 id) (fun t => t.pc == 0x202) = true := by decide
/-- CT2. -/
theorem test_ret : next (ran 0x00EE (fun s => setStack [0x300, 0x204] (setPc 0x400 s)))
    (fun t => t.pc == 0x300 && t.stack == [0x204]) = true := by decide
/-- CT3. -/
theorem test_ret_underflow : faults (ran 0x00EE id) (.stackUnderflow 0x00EE 0x200) = true := by decide
/-- CT4. -/
theorem test_jp_self : ran 0x1200 id = .next (start 0x1200 id) := by rfl
/-- CT5: the jump itself completes. -/
theorem test_jp_highest : next (ran 0x1FFF id) (fun t => t.pc == 0xFFF && faults (step t) .memRange) = true := by decide
/-- CT7. -/
theorem test_call : next (ran 0x2ABC (fun s => setStack [0x204] (setPc 0x300 s)))
    (fun t => t.pc == 0xABC && t.stack == [0x302, 0x204]) = true := by decide
/-- CT8. -/
theorem test_call_at_top : next (ran 0x2FFE (setPc 0xFFE)) (fun t => t.pc == 0xFFE && t.stack == [0x1000]) = true := by decide
/-- CT12. -/
theorem test_call_finite : faults (callWithin (some 2) 0x300 (setStack [0x302, 0x202] State.reset)) .stackOverflow = true ∧
    next (callWithin (some 2) 0x300 (setStack [0x202] State.reset)) (fun t => t.pc == 0x300) = true := by decide
/-- CT9. -/
theorem test_jp_v0 : next (ran 0xB300 (setReg 0 0xFF)) (fun t => t.pc == 0x3FF) = true := by decide
/-- CT10. -/
theorem test_jp_v0_highest : next (ran 0xBFFF (setReg 0 0xFF)) (fun t => t.pc == 0x10FE && faults (step t) .memRange) = true := by
  decide

/-! Skips. -/

/-- SK1, SK2. -/
theorem test_se_imm : next (ran 0x3A42 (setReg 0xA 0x42)) (fun t => t.pc == 0x204) = true ∧
    next (ran 0x3A42 (setReg 0xA 0x43)) (fun t => t.pc == 0x202) = true := by decide
/-- SK13: a skip at 4094, and only the next fetch fails. -/
theorem test_se_imm_at_top : next (ran 0x3000 (setPc 0xFFE)) (fun t => t.pc == 0x1002 && faults (step t) .memRange) = true := by
  decide
/-- SK3, SK4. -/
theorem test_sne_imm : next (ran 0x4A42 (setReg 0xA 0x42)) (fun t => t.pc == 0x202) = true ∧
    next (ran 0x4A42 (setReg 0xA 0x43)) (fun t => t.pc == 0x204) = true := by decide
/-- SK5, SK6. -/
theorem test_se_reg : next (ran 0x5AB0 (fun s => setReg 0xA 9 (setReg 0xB 9 s))) (fun t => t.pc == 0x204) = true ∧
    next (ran 0x5AB0 (fun s => setReg 0xA 9 (setReg 0xB 8 s))) (fun t => t.pc == 0x202) = true := by decide
/-- SK7, SK10. -/
theorem test_skip_same_register : next (ran 0x5AA0 (setReg 0xA 9)) (fun t => t.pc == 0x204) = true ∧
    next (ran 0x9AA0 (setReg 0xA 9)) (fun t => t.pc == 0x202) = true := by decide
/-- SK8, SK9. -/
theorem test_sne_reg : next (ran 0x9AB0 (fun s => setReg 0xA 9 (setReg 0xB 9 s))) (fun t => t.pc == 0x202) = true ∧
    next (ran 0x9AB0 (fun s => setReg 0xA 9 (setReg 0xB 8 s))) (fun t => t.pc == 0x204) = true := by decide

/-! ALU and registers. -/

/-- AL1. -/
theorem test_ld_imm : next (ran 0x6F7F id) (fun t => reg t 0xF == 0x7F && t.pc == 0x202) = true := by decide
/-- AL2. -/
theorem test_add_imm_wraps : next (ran 0x7301 (fun s => setReg 3 0xFF (setReg 0xF 0x55 s)))
    (fun t => reg t 3 == 0 && reg t 0xF == 0x55 && t.pc == 0x202) = true := by decide
/-- AL4. -/
theorem test_add_imm_flag : next (ran 0x7F02 (setReg 0xF 0xFF)) (fun t => reg t 0xF == 1) = true := by decide
/-- AL5. -/
theorem test_ld_reg : next (ran 0x8120 (fun s => setReg 1 1 (setReg 2 0xAB s))) (fun t => reg t 1 == 0xAB && reg t 2 == 0xAB) = true := by
  decide
/-- The start of AL6 to AL8. -/
def logicStart (s : State) : State := setReg 1 0x0C (setReg 2 0x0A (setReg 0xF 7 s))
/-- AL6. -/
theorem test_or : next (ran 0x8121 logicStart) (fun t => reg t 1 == 0x0E && reg t 0xF == 7) = true := by decide
/-- AL7. -/
theorem test_and : next (ran 0x8122 logicStart) (fun t => reg t 1 == 0x08 && reg t 0xF == 7) = true := by decide
/-- AL8. -/
theorem test_xor : next (ran 0x8123 logicStart) (fun t => reg t 1 == 0x06 && reg t 0xF == 7) = true := by decide
/-- AL10, AL11: 256 carries, 255 does not. -/
theorem test_add_reg : next (ran 0x8124 (fun s => setReg 1 0xFF (setReg 2 1 s))) (fun t => reg t 1 == 0 && reg t 0xF == 1) = true ∧
    next (ran 0x8124 (fun s => setReg 1 0xFE (setReg 2 1 (setReg 0xF 1 s)))) (fun t => reg t 1 == 0xFF && reg t 0xF == 0) = true := by
  decide
/-- AL14, AL16: `VF` as destination, `VF` as source. -/
theorem test_add_reg_flag : next (ran 0x8F14 (fun s => setReg 1 0x20 (setReg 0xF 0xF0 s))) (fun t => reg t 0xF == 1) = true ∧
    next (ran 0x81F4 (fun s => setReg 1 0x20 (setReg 0xF 3 s))) (fun t => reg t 1 == 0x23 && reg t 0xF == 0) = true := by decide
/-- AL18, AL19: a borrow, and equal operands. -/
theorem test_sub : next (ran 0x8125 (fun s => setReg 1 1 (setReg 2 2 (setReg 0xF 1 s)))) (fun t => reg t 1 == 0xFF && reg t 0xF == 0) = true ∧
    next (ran 0x8125 (fun s => setReg 1 5 (setReg 2 5 s))) (fun t => reg t 1 == 0 && reg t 0xF == 1) = true := by decide
/-- AL24. -/
theorem test_sub_flag : next (ran 0x8F15 (fun s => setReg 1 2 (setReg 0xF 9 s))) (fun t => reg t 0xF == 1) = true := by decide
/-- AL26: `y` is ignored. -/
theorem test_shr : next (ran 0x8126 (fun s => setReg 1 5 (setReg 2 0xAA s)))
    (fun t => reg t 1 == 2 && reg t 0xF == 1 && reg t 2 == 0xAA) = true := by decide
/-- AL30. -/
theorem test_shr_flag : next (ran 0x8F06 (setReg 0xF 7)) (fun t => reg t 0xF == 0) = true := by decide
/-- AL32, AL33. -/
theorem test_subn : next (ran 0x8127 (fun s => setReg 1 1 (setReg 2 0x10 s))) (fun t => reg t 1 == 0x0F && reg t 0xF == 1) = true ∧
    next (ran 0x8127 (fun s => setReg 1 0x10 (setReg 2 1 (setReg 0xF 1 s)))) (fun t => reg t 1 == 0xF1 && reg t 0xF == 0) = true := by
  decide
/-- AL36. -/
theorem test_subn_flag : next (ran 0x8F17 (fun s => setReg 1 5 (setReg 0xF 3 s))) (fun t => reg t 0xF == 1) = true := by decide
/-- AL37, AL38. -/
theorem test_shl : next (ran 0x812E (fun s => setReg 1 0x81 (setReg 2 0xAA s)))
      (fun t => reg t 1 == 2 && reg t 0xF == 1 && reg t 2 == 0xAA) = true ∧
    next (ran 0x812E (fun s => setReg 1 0x40 (setReg 0xF 1 s))) (fun t => reg t 1 == 0x80 && reg t 0xF == 0) = true := by decide
/-- AL40. -/
theorem test_shl_flag : next (ran 0x8F0E (setReg 0xF 0x80)) (fun t => reg t 0xF == 2) = true := by decide
/-- AL45, for every byte the random source can answer. -/
theorem test_rnd_mask_zero (s : State) : ∃ t, exec (.rnd 1 0) s = .next t ∧ reg t 1 = 0 := ⟨_, rfl, by simp⟩
/-- 42_alu.md R131: one byte is requested, also with the mask 0. -/
theorem test_rnd_draws : next (ran 0xC100 id) (fun t => t.draws == 1 && t.pc == 0x202) = true := by decide

/-! Index register and memory. -/

/-- IM1. -/
theorem test_ld_i : next (ran 0xAFFF id) (fun t => t.i == 0xFFF) = true := by decide
/-- IM3, IM4: no flag, and modulo 2^16. -/
theorem test_add_i : next (ran 0xF21E (fun s => setI 0xFFF (setReg 2 1 s))) (fun t => t.i == 0x1000 && reg t 0xF == 0) = true ∧
    next (ran 0xF21E (fun s => setI 0xFFFF (setReg 2 2 s))) (fun t => t.i == 1 && reg t 0xF == 0) = true := by decide
/-- IM8, IM10. -/
theorem test_ld_f : next (ran 0xF329 (setReg 3 0x0F)) (fun t => t.i == 0x4B) = true ∧
    next (ran 0xF329 (setReg 3 0xFF)) (fun t => t.i == 0x4FB) = true := by decide
/-- IM12, IM14. -/
theorem test_ld_b : next (ran 0xF533 (fun s => setI 0x300 (setReg 5 255 s))) (fun t => bytesAt t 0x300 [2, 5, 5]) = true ∧
    next (ran 0xF533 (fun s => setI 0x300 (setReg 5 9 s))) (fun t => bytesAt t 0x300 [0, 0, 9]) = true := by decide
/-- IM15, IM16: the highest legal `I`. -/
theorem test_ld_b_top : next (ran 0xF533 (fun s => setI 0xFFD (setReg 5 123 s))) (fun t => bytesAt t 0xFFD [1, 2, 3]) = true ∧
    faults (ran 0xF533 (fun s => setI 0xFFE (setReg 5 123 s))) .memRange = true := by decide
/-- IM19. -/
theorem test_st_regs : next (ran 0xF255 (fun s => setI 0x400 (setReg 0 1 (setReg 1 2 (setReg 2 3 (setReg 3 4 s))))))
    (fun t => bytesAt t 0x400 [1, 2, 3, 0] && t.i == 0x400) = true := by decide
/-- IM20 (its last byte), IM21. -/
theorem test_st_regs_top : next (ran 0xFF55 (fun s => setI 0xFF0 (setReg 0xF 0x1F s))) (fun t => readByte t 0xFFF == 0x1F) = true ∧
    faults (ran 0xFF55 (setI 0xFF1)) .memRange = true := by decide
/-- IM24. -/
theorem test_ld_regs : next (ran 0xF165 (fun s => setI 0x400 (setReg 2 0x11 (writeBytes 0x400 [0xAA, 0xBB, 0xCC] s))))
    (fun t => reg t 0 == 0xAA && reg t 1 == 0xBB && reg t 2 == 0x11 && t.i == 0x400) = true := by decide
/-- IM25 (the default `FONT`), IM28. -/
theorem test_ld_regs_ends : next (ran 0xF065 id) (fun t => reg t 0 == 0xF0) = true ∧
    faults (ran 0xF065 (setI 0x1000)) .memRange = true := by decide

/-! Display. -/

/-- DP1. -/
theorem test_cls : next (ran 0x00E0 (fun s => light [(0, 0), (5, 7), (63, 31)] (setReg 0xF 1 s)))
    (fun t => litExactly [] t && reg t 0xF == 1) = true := by decide +kernel
/-- DP4: a cell that was on goes off, a zero bit touches nothing. -/
theorem test_drw_collision : next (ran 0xD011 (fun s => light [(1, 0), (2, 0)] (setI 0x300 (writeByte 0x300 0xC0 s))))
    (fun t => litExactly [(0, 0), (2, 0)] t && reg t 0xF == 1) = true := by decide +kernel
/-- DP9: the wrap of start coordinates and of columns. -/
theorem test_drw_wraps : next (ran 0xD121 (fun s => setReg 1 0xFF (setReg 2 0xFF (setI 0x300 (writeByte 0x300 0x81 s)))))
    (fun t => litExactly [(63, 31), (6, 31)] t && reg t 0xF == 0 && t.i == 0x300) = true := by decide +kernel

/-! Keys and timers. -/

/-- KT3, KT2. -/
theorem test_skp : next (ran 0xE19E (fun s => press [15] (setReg 1 0x0F s))) (fun t => t.pc == 0x204) = true ∧
    next (ran 0xE19E (setReg 1 0x0A)) (fun t => t.pc == 0x202) = true := by decide
/-- KT4: not masked to key 0. -/
theorem test_skp_range : faults (ran 0xE19E (fun s => press [0] (setReg 1 0x10 s))) .keyRange = true := by decide
/-- KT5, KT6. -/
theorem test_sknp : next (ran 0xE1A1 (fun s => press [10] (setReg 1 0x0A s))) (fun t => t.pc == 0x202) = true ∧
    next (ran 0xE1A1 (setReg 1 0x0A)) (fun t => t.pc == 0x204) = true := by decide
/-- KT7. -/
theorem test_sknp_range : faults (ran 0xE1A1 (setReg 1 0xFF)) .keyRange = true := by decide
/-- KT9, KT12: the lowest key, and the highest alone. -/
theorem test_wait_key : next (ran 0xF50A (fun s => press [3, 7] (setReg 5 0xEE s))) (fun t => reg t 5 == 3 && t.pc == 0x202) = true ∧
    next (ran 0xF50A (press [15])) (fun t => reg t 5 == 0x0F && t.pc == 0x202) = true := by decide
/-- KT10. -/
theorem test_wait_no_key : next (ran 0xF50A (setReg 5 0xEE)) (fun t => reg t 5 == 0xEE && t.pc == 0x200) = true := by decide
/-- KT14. -/
theorem test_ld_vx_dt : next (ran 0xF207 (setDt 0x3C)) (fun t => reg t 2 == 0x3C && t.dt == 0x3C) = true := by decide
/-- KT16. -/
theorem test_ld_dt_vx : next (ran 0xF215 (setReg 2 0x3C)) (fun t => t.dt == 0x3C && t.st == 0) = true := by decide
/-- KT18. -/
theorem test_ld_st_vx : next (ran 0xF218 (setReg 2 5)) (fun t => t.st == 5 && t.dt == 0) = true := by decide

/-! The host's operations. -/

/-- TK4, TK5, TK2. -/
theorem test_tick : (tickTimers (setSt 1 State.reset)).2 = true ∧ (tickTimers (setSt 1 State.reset)).1.st = 0 ∧
    (tickTimers (setDt 0xFF (setSt 0xFF State.reset))).2 = false ∧
    (tickTimers (setDt 0xFF (setSt 0xFF State.reset))).1.dt = 0xFE ∧
    (tickTimers (setDt 1 State.reset)).2 = false := by decide
/-- TK1: zero stays zero. -/
theorem test_tick_zero : (tickTimers State.reset).1 = State.reset := by rfl
/-- FD2: the other byte order. -/
theorem test_little_endian_fetch : next (step (writeBytes 0x200 [0x05, 0x61] (setByteOrder .little State.reset)))
    (fun t => reg t 1 == 5 && t.pc == 0x202) = true := by decide
/-- FD11: byte order does not touch data. -/
theorem test_little_endian_data : next (ran 0xF255 (fun s => setBo .little (setI 0x400 (setReg 0 1 (setReg 1 2 s)))))
    (fun t => bytesAt t 0x400 [1, 2]) = true := by decide
/-- FD4, FD5, FD6. -/
theorem test_fetch_range : next (ran 0 (setPc 0xFFE)) (fun t => t.pc == 0x1000) = true ∧
    faults (step (setPc 0xFFF State.reset)) .memRange = true ∧ faults (step (setPc 0x1000 State.reset)) .memRange = true := by
  decide
/-- P6b, its second step: the diagnostic and the state left. -/
theorem test_fatal_diagnostic : Session.call .step (.running (start 0x5011 (setPc 0x202))) =
    .next (.over (setPc 0x204 (start 0x5011 (setPc 0x202))), .fatal 1 0x5011 0x202) := by rfl
/-- 20_memory.md R61: the byte last written is read, and a write of the reset contents unlists the byte. -/
theorem test_memory_canonical : (writeByte 0x300 0 (writeByte 0x300 7 State.reset)).mem = [] ∧
    (writeByte 0x200 1 (writeByte 0x300 7 State.reset)).mem = [(0x200, 1), (0x300, 7)] := by decide

/-! Witnesses: for every statement with hypotheses, a concrete state and operands that meet them all, each clause at a
boundary of its range. Each states the hypotheses alone. -/

/-- `NopOnlyAdvancesPc`: the words beside the three legal ones, and a fetched NOP. -/
theorem test_witness_nop : (0x001#12 ≠ 0x000#12 ∧ 0x001#12 ≠ 0x0E0#12 ∧ 0x001#12 ≠ 0x0EE#12) ∧
    (0xFFF#12 ≠ 0x000#12 ∧ 0xFFF#12 ≠ 0x0E0#12 ∧ 0xFFF#12 ≠ 0x0EE#12) ∧ fetch State.reset = some 0x0000#16 := by decide
/-- `ReturnPopsIntoPc`. -/
theorem test_witness_ret : (setStack [0x1000#16] State.reset).stack = 0x1000#16 :: [] ∧ State.reset.stack = [] := by decide
/-- `JumpIsAbsolute`: a jump to itself, and the target 4095. -/
theorem test_witness_jp : fetch (start 0x1200 id) = some (wordA 0x1000#16 0x200#12) ∧
    (start 0x1200 id).pc = (0x200#12).setWidth 16 ∧ exec (.jp 0xFFF#12) State.reset = .next (setPc 0xFFF State.reset) :=
  ⟨by decide, by decide, rfl⟩
/-- `CallPushesReturnAddress`. -/
theorem test_witness_call : fetch (start 0x2FFE (setPc 0xFFE)) = some (wordA 0x2000#16 0xFFE#12) := by decide
/-- `FiniteStackOverflows`: full and one below, also the capacity 0. -/
theorem test_witness_finite_stack : (setStack [0x302, 0x202] State.reset).stack.length = 2 ∧
    (setStack [0x202] State.reset).stack.length < 2 ∧ State.reset.stack.length = 0 := by decide
/-- `JumpPlusV0`: the sums 4095 and 4350 are beyond the last fetch, 4094 is not. -/
theorem test_witness_jp_v0 : (4094 < (reg State.reset 0).toNat + (0xFFF#12).toNat ∧
      exec (.jpV0 0xFFF#12) State.reset = .next (setPc 0xFFF State.reset)) ∧
    (4094 < (reg (setReg 0 0xFF State.reset) 0).toNat + (0xFFF#12).toNat ∧
      exec (.jpV0 0xFFF#12) (setReg 0 0xFF State.reset) = .next (setPc 0x10FE (setReg 0 0xFF State.reset))) ∧
    ¬ 4094 < (reg State.reset 0).toNat + (0xFFE#12).toNat := ⟨⟨by decide, rfl⟩, ⟨by decide, rfl⟩, by decide⟩
/-- `SkipsOnImmediate`, `SkipsOnRegisters`: both sides of the condition, and an illegal low nibble. -/
theorem test_witness_skips : reg (setReg 0xA 0x42 State.reset) 0xA = 0x42#8 ∧ reg (setReg 0xA 0x43 State.reset) 0xA ≠ 0x42#8 ∧
    reg State.reset 0xA = reg State.reset 0xB ∧ reg (setReg 0xA 1 State.reset) 0xA ≠ reg (setReg 0xA 1 State.reset) 0xB ∧
    (1#4 ≠ 0 ∧ 0xF#4 ≠ 0) := by decide
/-- `SkipPassesOneWord`: taken at 4094, and not taken. -/
theorem test_witness_skip_passes : (fetch (start 0x3000 (setPc 0xFFE)) = some 0x3000#16 ∧
      decode 0x3000#16 = some (.seImm 0#4 0#8) ∧
      skipCondition (.seImm 0#4 0#8) (start 0x3000 (setPc 0xFFE)) = some (reg (start 0x3000 (setPc 0xFFE)) 0#4 = 0#8) ∧
      reg (start 0x3000 (setPc 0xFFE)) 0#4 = 0#8 ∧ (start 0x3000 (setPc 0xFFE)).pc = 4094#16) ∧
    (fetch (start 0x3001 id) = some 0x3001#16 ∧ decode 0x3001#16 = some (.seImm 0#4 1#8) ∧
      skipCondition (.seImm 0#4 1#8) (start 0x3001 id) = some (reg (start 0x3001 id) 0#4 = 1#8) ∧
      ¬ reg (start 0x3001 id) 0#4 = 1#8) :=
  ⟨⟨by decide, by decide, rfl, by decide, by decide⟩, by decide, by decide, rfl, by decide⟩
/-- `V1 = 15`, and the key 15 pressed. -/
def keyHeld (s : State) : State := press [15] (setReg 1 0x0F s)
/-- `SkipPassesOneWord` for a key skip, at the highest key. -/
theorem test_witness_skip_passes_key : fetch (start 0xE19E keyHeld) = some 0xE19E#16 ∧ decode 0xE19E#16 = some (.skp 1#4) ∧
    skipCondition (.skp 1#4) (start 0xE19E keyHeld) =
      some (pressed (start 0xE19E keyHeld) (reg (start 0xE19E keyHeld) 1#4).toNat) ∧
    pressed (start 0xE19E keyHeld) (reg (start 0xE19E keyHeld) 1#4).toNat :=
  ⟨by decide, by decide, by unfold skipCondition; exact if_pos (by decide), by decide, by decide⟩
/-- `AddSetsCarry`, `SubtractionsSetNoBorrow`, `ShiftsByOneKeepDroppedBit`: destinations other than `VF` and `VF` itself;
the sums 255 and 256. -/
theorem test_witness_flags : (0xE#4 ≠ 0xF#4 ∧ 0#4 ≠ 0xF#4) ∧ ¬ (0xFE#8).toNat + (1#8).toNat > 255 ∧
    (0xFF#8).toNat + (1#8).toNat > 255 ∧ ¬ (5#8).toNat < (5#8).toNat ∧ (4#8).toNat < (5#8).toNat := by decide
/-- `RandomByteIsMasked`: an instruction that is no RND. -/
theorem test_witness_rnd : (∀ x nn, Instr.nop ≠ .rnd x nn) ∧ exec .nop State.reset = .next State.reset :=
  ⟨(by intro x nn h; cases h), rfl⟩
/-- `AddToIndex`, `IndexSumWraps`: the sums 65535 and 65536. -/
theorem test_witness_index : (setI 0xFFFE#16 (setReg 2 1 State.reset)).i.toNat + (reg (setI 0xFFFE#16 (setReg 2 1 State.reset)) 2).toNat < 65536 ∧
    65536 ≤ (setI 0xFFFF#16 (setReg 2 1 State.reset)).i.toNat + (reg (setI 0xFFFF#16 (setReg 2 1 State.reset)) 2).toNat := by decide
/-- `DecimalDigitsAreStored`: `I` 4093 and 4094. -/
theorem test_witness_ld_b : (setI 0xFFD#16 State.reset).i.toNat + 2 ≤ 4095 ∧ 4095 < (setI 0xFFE#16 State.reset).i.toNat + 2 := by decide
/-- `RegistersAreStored`, `RegistersAreLoaded`: the block ends at 4095 and at 4096; all sixteen registers. -/
theorem test_witness_blocks : (setI 0xFF0#16 State.reset).i.toNat + (0xF#4).toNat ≤ 4095 ∧
    4095 < (setI 0xFF1#16 State.reset).i.toNat + (0xF#4).toNat ∧ (0xF#4).toNat ≤ (0xF#4).toNat ∧ (0#4).toNat < (1#4).toNat := by decide
/-- The store of `V0` and `V1` at 0x300 that the next two witnesses run. -/
def stored : State := storeRegs 0x300 2 (setI 0x300 (setReg 0 0x61 (setReg 1 0x05 State.reset)))
/-- `RegistersAreLoaded`: a store and a load of the same block. -/
theorem test_witness_store_load : exec (.stRegs 1#4) (setI 0x300 (setReg 0 0x61 (setReg 1 0x05 State.reset))) = .next stored ∧
    (setReg 0 0 stored).i = stored.i ∧ (∀ a, readByte (setReg 0 0 stored) a = readByte stored a) ∧
    exec (.ldRegs 1#4) (setReg 0 0 stored) = .next (loadRegs 0x300 2 (setReg 0 0 stored)) := ⟨rfl, rfl, fun _ => rfl, rfl⟩
/-- `FetchSeesStoredBytes`: the registers stored by ST_REGS. -/
theorem test_witness_fetch_stored : (1#4).toNat = (0#4).toNat + 1 ∧ (1#4).toNat ≤ (1#4).toNat ∧
    exec (.stRegs 1#4) (setI 0x300 (setReg 0 0x61 (setReg 1 0x05 State.reset))) = .next stored ∧
    (setPc 0x300 stored).pc.toNat = 0x300 + (0#4).toNat ∧ (setPc 0x300 stored).mem = stored.mem :=
  ⟨by decide, by decide, rfl, by decide, rfl⟩
/-- The digits 1, 5 and 6 that LD_B stores at 4093 to 4095. -/
def digits : State := writeBytes 0xFFD [1, 5, 6] (setI 0xFFD (setReg 5 0x9C State.reset))
/-- `FetchSeesStoredBytes`: the digits stored by LD_B, both pairs, at the end of memory; and a fetch beside them. -/
theorem test_witness_fetch_digits : exec (.ldB 5#4) (setI 0xFFD (setReg 5 0x9C State.reset)) = .next digits ∧
    ((setPc 0xFFD digits).mem = digits.mem ∧ (setPc 0xFFD digits).pc.toNat = 0xFFD) ∧
    ((setPc 0xFFE digits).mem = digits.mem ∧ (setPc 0xFFE digits).pc.toNat = 0xFFD + 1 ∧ (setPc 0xFFE digits).pc.toNat ≤ 4094) ∧
    ((setPc 0xFFC digits).mem = digits.mem ∧ (setPc 0xFFC digits).pc.toNat ≤ 4094) :=
  ⟨rfl, by decide, by decide, by decide⟩
/-- 20_memory.md R64, by hand: the digits of 0x9C are fetched as the words 0x0105 and 0x0506, in little order 0x0605. -/
theorem test_fetch_digits : fetch (setPc 0xFFD digits) = some 0x0105#16 ∧ fetch (setPc 0xFFE digits) = some 0x0506#16 ∧
    fetch (setBo .little (setPc 0xFFE digits)) = some 0x0605#16 := by decide
/-- `DrawTogglesTheSprite`: no row with `I` beyond memory, the last byte, one beyond it; a covered cell that is on. -/
theorem test_witness_drw : (0#4).toNat = 0 ∧ (setI 0xFFF#16 State.reset).i.toNat + (1#4).toNat - 1 ≤ 4095 ∧
    0 < (2#4).toNat ∧ 4095 < (setI 0xFFF#16 State.reset).i.toNat + (2#4).toNat - 1 ∧
    SpriteCovers (light [(0, 0)] State.reset) 0 1 1 0 0 ∧ cell (light [(0, 0)] State.reset) 0 0 = true :=
  ⟨by decide, by decide, by decide, by decide, ⟨0, by decide, 0, by decide, by decide, by decide, by decide⟩, by decide⟩
/-- `DoubleDrawRestores`: `x = y`, and the last byte of memory. -/
theorem test_witness_double_draw : 0xE#4 ≠ 0xF#4 ∧ (setI 0xFFF#16 State.reset).i.toNat + (1#4).toNat - 1 ≤ 4095 := by decide
/-- `SkipsOnKey`: the values 15 and 16. -/
theorem test_witness_skip_key : (reg (setReg 1 0x0F State.reset) 1).toNat = (15 : Fin 16).1 ∧ 15 < (reg (setReg 1 0x10 State.reset) 1).toNat := by
  decide
/-- `WaitForKey`: the highest key alone, two keys, none. -/
theorem test_witness_wait : (keyFlag (press [15] State.reset) 15 = true ∧ ∀ j : Fin 16, j.1 < 15 → keyFlag (press [15] State.reset) j = false) ∧
    (keyFlag (press [3, 7] State.reset) 3 = true ∧ ∀ j : Fin 16, j.1 < 3 → keyFlag (press [3, 7] State.reset) j = false) ∧
    (fetch (start 0xF50A id) = some (wordXF 0xF00A#16 5) ∧ ∀ j, keyFlag (start 0xF50A id) j = false) := by decide
/-- `StepRunsTheDecodedInstruction`: 4094 and 4095, an illegal word, a legal one. -/
theorem test_witness_step : (setPc 4094 State.reset).pc.toNat ≤ 4094 ∧ 4094 < (setPc 4095 State.reset).pc.toNat ∧
    (fetch (start 0x5AB1 id) = some 0x5AB1#16 ∧ decode 0x5AB1#16 = none) ∧
    (fetch (start 0x5AB0 id) = some 0x5AB0#16 ∧ decode 0x5AB0#16 = some (.seReg 0xA 0xB)) := by decide
/-- `FatalConditionsArePrecise`, `IllegalWordsAreTheTable`, and the step of `ReturnPopsIntoPc`: an illegal word at the last
fetch address, and a RET with an empty stack. -/
theorem test_witness_fatal : (fetch (start 0xFFFF (setPc 0xFFE)) = some 0xFFFF#16 ∧ WellFormed.legalWord 0xFFFF#16 = false) ∧
    (fetch (start 0x00EE id) = some 0x00EE#16 ∧ (start 0x00EE id).stack = []) := by decide
/-- `FatalEndsTheRun`. -/
theorem test_witness_run_over : HostCall.step ≠ .reset ∧ HostCall.step ≠ .snapshot ∧ HostCall.tickTimers ≠ .reset ∧
    HostCall.tickTimers ≠ .snapshot := by decide
/-- `ChecksAndTheirOrder`: the three checks, and an instruction that passes its own. -/
theorem test_witness_checks : fetch (setPc 4095 State.reset) = none ∧ (fetch (start 0x0001 id) = some 0x0001#16 ∧ decode 0x0001#16 = none) ∧
    (fetch (start 0xF533 (setI 0xFFE)) = some 0xF533#16 ∧ decode 0xF533#16 = some (.ldB 5) ∧
      failedCheck (.ldB 5) (advancePc (start 0xF533 (setI 0xFFE))) = some .memRange) ∧
    failedCheck (.ldB 5) (setI 0xFFD State.reset) = none ∧ failedCheck .nop State.reset = none ∧
    failedCheck .ret State.reset = some (.stackUnderflow 0x00EE 0x1FE) := by decide
/-- `FetchFollowsByteOrder`: the last word, both orders, and one beyond. -/
theorem test_witness_byte_order : 4094 + 1 ≤ 4095 ∧ State.reset.bo = .big ∧ (setBo .little State.reset).bo = .little ∧ 4095 < 4095 + 1 := by decide
/-- `FetchFollowsByteOrder`: a call that completes, and a fatal step. -/
theorem test_witness_byte_order_calls : (HostCall.tickTimers ≠ .reset ∧ ∀ mode, HostCall.tickTimers ≠ .setByteOrder mode) ∧
    Session.call .tickTimers (.running State.reset) = .next (.running State.reset, .soundStopped false) ∧
    (HostCall.step ≠ .reset ∧ ∀ mode, HostCall.step ≠ .setByteOrder mode) ∧
    Session.call .step (.running (start 0x5011 id)) = .next (.over (advancePc (start 0x5011 id)), .fatal 1 0x5011 0x200) :=
  ⟨⟨by decide, fun _ h => by cases h⟩, rfl, ⟨by decide, fun _ h => by cases h⟩, rfl⟩
/-- `KeyPortSetsOneFlag`: another key. -/
theorem test_witness_key_port : (0 : Fin 16) ≠ 15 := by decide
/-- `ProgramIsCopiedTo512`, `CallsOutsideContractAreRefused`: the longest program and one longer, the key 16, a block that
starts at the end. -/
theorem test_witness_contracts : (List.replicate 3584 (0 : Byte)).length ≤ 3584 ∧ 3584 < (List.replicate 3585 (0 : Byte)).length ∧
    15 < 16 ∧ 4096 < 4096 + [(0 : Byte)].length := by
  simp only [List.length_replicate]; decide
/-- `ResetIsTotalAndIdempotent`, `ResetClearsIndexKeysMemory`: the two sides of the font's end. -/
theorem test_witness_reset : 79 < 80 ∧ 80 ≤ 80 ∧ some (readByte State.reset 79) = fontTable[79]? ∧ readByte State.reset 80 = 0 := by decide +kernel
/-- `EmptyMachineRunsNops`: the last NOP completes at 4094 and leaves 4096. -/
theorem test_witness_empty_machine : 512 + 2 * 1791 = 4094 ∧ next (step (setPc 4094 State.reset)) (fun t => t.pc == 4096) = true ∧
    faults (step (setPc 4096 State.reset)) .memRange = true := by decide +kernel
/-- `StepKeepsInvariant`: the invariant holds and the step completes, with a return address at its greatest. -/
theorem test_witness_invariant : Invariant (start 0x2FFE (setPc 0xFFE)) ∧
    step (start 0x2FFE (setPc 0xFFE)) = .next (setStack [0x1000] (start 0x2FFE (setPc 0xFFE))) :=
  ⟨⟨by decide, by decide, fun a h => absurd h (List.not_mem_nil)⟩, rfl⟩
/-- `HostCallsKeepInvariant`: a call that completes, and a fatal step. -/
theorem test_witness_host_invariant : Invariant State.reset ∧
    Session.call .tickTimers (.running State.reset) = .next (.running State.reset, .soundStopped false) ∧
    Session.call .step (.running (start 0x5011 id)) = .next (.over (advancePc (start 0x5011 id)), .fatal 1 0x5011 0x200) :=
  ⟨⟨by decide, by decide, fun a h => absurd h (List.not_mem_nil)⟩, rfl, rfl⟩
/-- `EncodeOfDecode`. -/
theorem test_witness_encode_decode : decode 0x81F6#16 = some (.shr 1 0xF) := by decide
/-- `OnlyNamedInstructionsWrite`, `FlagWritersAndDestinations`: completing instructions, the shifts with `VF` too. -/
theorem test_witness_writers : exec (.jp 0x300) State.reset = .next (setPc 0x300 State.reset) ∧
    next (exec (.addReg 1 2) State.reset) (fun _ => true) = true ∧ next (exec (.subReg 1 2) State.reset) (fun _ => true) = true ∧
    next (exec (.subnReg 1 2) State.reset) (fun _ => true) = true ∧ next (exec (.shr 1 2) State.reset) (fun _ => true) = true ∧
    next (exec (.shl 1 2) State.reset) (fun _ => true) = true ∧ next (exec (.shr 0xF 2) State.reset) (fun _ => true) = true ∧
    next (exec (.shl 0xF 2) State.reset) (fun _ => true) = true ∧ next (exec (.drw 1 2 0) State.reset) (fun _ => true) = true :=
  ⟨rfl, by decide, by decide, by decide, by decide, by decide, by decide, by decide, by decide⟩
/-- `CanonicalMemoryIsUnique`. -/
theorem test_witness_memory : Memory.wf [(0x50, 1), (0xFFF, 2)] ∧ ¬ Memory.wf [(0x50, 0)] ∧ ¬ Memory.wf [(0x1000, 1)] := by decide
/-- `SoundAndByteOrderAreNeverRead`. -/
theorem test_witness_never_read : ∀ x, Instr.nop ≠ .ldStVx x := fun _ h => by cases h

/-! The end of a run (70_reset_and_hazards.md R201). -/

/-- `RunsEndInThreeWays`: a step that goes on, one that is fatal, one that is undefined. -/
theorem test_witness_three_ways : step (start 0x1200 id) = .next (start 0x1200 id) ∧
    (step (start 0x00EE id) = .fault (.stackUnderflow 0x00EE 0x200) ∧
      diagnostic (.stackUnderflow 0x00EE 0x200) = some (2, 0x00EE, 0x200)) ∧
    step (setPc 4095 State.reset) = .fault .memRange ∧ diagnostic .memRange = none := ⟨rfl, ⟨rfl, rfl⟩, rfl, rfl⟩
/-- R201, by hand: `JP 0x200` at 0x200 has finished, and so has `JP V0, 0x200` while `V0` is 0. -/
theorem test_finished : FinishedAt 0x200 (start 0x1200 id) ∧ FinishedAt 0x200 (start 0xB200 id) :=
  ⟨finishedAt_of_exec (op := 0x1200) (i := .jp 0x200) rfl (by decide) (by decide) fun _ => rfl,
    finishedAt_of_exec (op := 0xB200) (i := .jpV0 0x200) rfl (by decide) (by decide) fun _ => rfl⟩
/-- R201, by hand: `JP 0x204` at 0x200 has not finished. -/
theorem test_not_finished : ¬ FinishedAt 0x200 (start 0x1204 id) := fun h =>
  absurd (congrArg (fun a => next a (fun t => t.pc == 0x200)) (finishedAt_fixedAt h).2) (by decide +kernel)
/-- 93_implementation_defined.md U16, by hand: a wait for a key is a fixed point with no key pressed, and not finished. -/
theorem test_wait_is_not_finished : FixedAt 0x200 (start 0xF50A id) ∧ ¬ FinishedAt 0x200 (start 0xF50A id) :=
  ⟨⟨rfl, rfl⟩, fun h =>
    absurd (congrArg (fun a => next a (fun t => t.pc == 0x200)) (h (Vector.replicate 16 true)).2) (by decide +kernel)⟩
/-- `JP 0x300` at 0x200, and `JP 0x300` at 0x300. -/
def jumps : State := start 0x1300 (writeBytes 0x300 [0x13, 0x00])
/-- `FinishesAt`, `FinishesUnder`: one step to a jump to itself; a key and a tick before it change nothing of that. -/
theorem test_finishes : FinishesAt 0x300 1 jumps ∧ FinishesUnder [.setPressed 3 true, .tickTimers, .step] 0x300 jumps :=
  ⟨⟨setPc 0x300 jumps, rfl, finishedAt_of_exec (op := 0x1300) (i := .jp 0x300) rfl (by decide) (by decide) fun _ => rfl⟩,
    ⟨setPc 0x300 (press [3] jumps), .done, rfl,
      finishedAt_of_exec (op := 0x1300) (i := .jp 0x300) rfl (by decide) (by decide) fun _ => rfl⟩⟩
/-- `FinishedIsAJumpToItself`: the two jumps, a wait, and host operations that leave a finished machine finished. -/
theorem test_witness_finished : (fetch (start 0x1200 id) = some (wordA 0x1000#16 0x200#12) ∧ (0x200#16).toNat = (0x200#12).toNat) ∧
    (fetch (start 0xB200 id) = some (wordA 0xB000#16 0x200#12) ∧
      (0x200#16).toNat = (reg (start 0xB200 id) 0).toNat + (0x200#12).toNat) ∧
    (fetch (start 0xF50A id) = some (wordXF 0xF00A#16 5) ∧ ∀ k, keyFlag (start 0xF50A id) k = false) ∧
    (HostCall.step ≠ .reset ∧ (∀ mode, HostCall.step ≠ .setByteOrder mode) ∧ ∀ bytes, HostCall.step ≠ .loadProgram bytes) ∧
    Session.call .step (.running (start 0x1200 id)) = .next (.running (start 0x1200 id), .done) :=
  ⟨by decide, by decide, by decide, ⟨by decide, (fun _ h => by cases h), fun _ h => by cases h⟩, rfl⟩

end Sys2Proof.Tests
end

section
/-! SUPPORT. Register frames: what each update leaves unchanged among the general registers, and what the two orders of
result and flag (42_alu.md R133) put where. -/

namespace Sys2Proof.Machine

theorem KeepsRegsBut.trans {rs : List Reg} {s t u : State} (h : KeepsRegsBut rs s t) (k : KeepsRegsBut rs t u) :
    KeepsRegsBut rs s u := fun r hr => (k r hr).trans (h r hr)

theorem KeepsRegsBut.mono {rs qs : List Reg} {s t : State} (h : KeepsRegsBut rs s t) (sub : rs ⊆ qs) :
    KeepsRegsBut qs s t := fun r hr => h r fun hq => hr (sub hq)

/-- An update that leaves the register file alone keeps every register. -/
theorem keepsRegsBut_of_v {s t : State} (h : t.v = s.v) (rs : List Reg) : KeepsRegsBut rs s t :=
  fun r _ => by simp only [reg, h]

theorem keepsRegsBut_setReg (x : Reg) (b : Byte) (s : State) : KeepsRegsBut [x] s (setReg x b s) :=
  fun r hr => by rw [reg_setReg, if_neg (fun e => hr (List.mem_singleton.mpr e))]

theorem keepsRegsBut_setFlag (c : Bool) (s : State) : KeepsRegsBut [0xF#4] s (setFlag c s) := keepsRegsBut_setReg _ _ s

theorem keepsRegsBut_resultThenFlag (x : Reg) (b : Byte) (c : Bool) (s : State) :
    KeepsRegsBut [x, 0xF#4] s (resultThenFlag x b c s) :=
  ((keepsRegsBut_setReg x b s).mono (by simp)).trans ((keepsRegsBut_setFlag c _).mono (by simp))

theorem keepsRegsBut_flagThenShift (x : Reg) (c : Bool) (shift : Byte → Byte) (s : State) :
    KeepsRegsBut [x, 0xF#4] s (flagThenShift x c shift s) :=
  ((keepsRegsBut_setFlag c s).mono (by simp)).trans ((keepsRegsBut_setReg x _ _).mono (by simp))

/-- LD_REGS writes only the registers of its block (43_index_memory.md R145). -/
theorem keepsRegsBut_loadRegs (base : Nat) {count : Nat} (small : count ≤ 16) (s : State) :
    KeepsRegsBut ((List.range count).map (BitVec.ofNat 4)) s (loadRegs base count s) := by
  intro r hr
  have outside : ¬ r.toNat < count := fun h =>
    hr (List.mem_map.mpr ⟨r.toNat, List.mem_range.mpr h, by simp⟩)
  rw [reg_loadRegs small, if_neg outside]

@[simp] theorem skipIf_v (c : Bool) (s : State) : (skipIf c s).v = s.v := by rw [skipIf_eq]; rfl

theorem writeBytes_v (a : Nat) (bs : List Byte) (s : State) : (writeBytes a bs s).v = s.v := by
  rw [writeBytes_eq_setMem]; rfl

theorem storeRegs_v (base count : Nat) (s : State) : (storeRegs base count s).v = s.v := by
  rw [storeRegs_eq_setMem]; rfl

theorem keepsAllBut_resultThenFlag (x : Reg) (b : Byte) (c : Bool) (s : State) :
    KeepsAllBut [.regs] s (resultThenFlag x b c s) := (keepsAllBut_setReg x b s).trans (keepsAllBut_setFlag c _)

theorem keepsAllBut_flagThenShift (x : Reg) (c : Bool) (shift : Byte → Byte) (s : State) :
    KeepsAllBut [.regs] s (flagThenShift x c shift s) := (keepsAllBut_setFlag c s).trans (keepsAllBut_setReg x _ _)

/-- The flag written last is what `VF` holds, whatever the destination. -/
@[simp] theorem reg_resultThenFlag_flag (x : Reg) (b : Byte) (c : Bool) (s : State) :
    reg (resultThenFlag x b c s) 0xF#4 = if c then 1 else 0 := by simp [resultThenFlag]

/-- A destination other than `VF` holds the result. -/
theorem reg_resultThenFlag_dest {x : Reg} (hx : x ≠ 0xF#4) (b : Byte) (c : Bool) (s : State) :
    reg (resultThenFlag x b c s) x = b := by simp [resultThenFlag, hx]

/-- With a destination other than `VF` the flag written first stays. -/
theorem reg_flagThenShift_flag {x : Reg} (hx : x ≠ 0xF#4) (c : Bool) (shift : Byte → Byte) (s : State) :
    reg (flagThenShift x c shift s) 0xF#4 = if c then 1 else 0 := by simp [flagThenShift, hx.symm]

/-- A destination other than `VF` holds its old value shifted. -/
theorem reg_flagThenShift_dest {x : Reg} (hx : x ≠ 0xF#4) (c : Bool) (shift : Byte → Byte) (s : State) :
    reg (flagThenShift x c shift s) x = shift (reg s x) := by simp [flagThenShift, hx]

/-- With `VF` as destination the flag just written is what is shifted. -/
theorem reg_flagThenShift_self (c : Bool) (shift : Byte → Byte) (s : State) :
    reg (flagThenShift 0xF#4 c shift s) 0xF#4 = shift (if c then 1 else 0) := by simp [flagThenShift]

end Sys2Proof.Machine
end

section
/-! SUPPORT. The 8-bit flags and shifts as numbers (42_alu.md R126 to R130). -/

namespace Sys2Proof.Machine

/-- A flag written last from the carry tells whether the exact sum is above 255 (42_alu.md R126). -/
theorem reg_resultThenFlag_carryOut (x : Reg) (r a b : Byte) (s : State) :
    reg (resultThenFlag x r (carryOut a b) s) 0xF#4 = if a.toNat + b.toNat > 255 then 1 else 0 := by
  simp [carryOut]

/-- A flag written last from the borrow is 0 exactly when there is one (42_alu.md R127, R129). -/
theorem reg_resultThenFlag_noBorrow (x : Reg) (r a b : Byte) (s : State) :
    reg (resultThenFlag x r (noBorrow a b) s) 0xF#4 = if a.toNat < b.toNat then 0 else 1 := by
  simp only [reg_resultThenFlag_flag, noBorrow, decide_eq_true_eq, ← Nat.not_lt, ite_not]

theorem toNat_shiftRight1 (a : Byte) : (shiftRight1 a).toNat = a.toNat / 2 := by
  have := a.isLt
  simp only [shiftRight1, BitVec.toNat_ofNat]
  omega

theorem toNat_shiftLeft1 (a : Byte) : (shiftLeft1 a).toNat = a.toNat * 2 % 256 := by simp [shiftLeft1]

/-- A flag value shifted right is gone. -/
theorem shiftRight1_flag (c : Bool) : shiftRight1 (if c then 1 else 0) = 0 := by cases c <;> rfl

/-- A flag value shifted left is 2 or 0. -/
theorem shiftLeft1_flag (c : Bool) : shiftLeft1 (if c then 1 else 0) = if c then 2 else 0 := by cases c <;> rfl

end Sys2Proof.Machine
end

section
/-! SUPPORT. Family 8 of the decoder, on the words of 30_encoding.md R86. -/

namespace Sys2Proof.Machine

/-- The word `8xyf` decodes by its low nibble `f` (30_encoding.md R75). -/
theorem decode_wordXYN_family8 (f : Nibble) (x y : Reg) :
    decode (wordXYN (8#4 ++ 0#8 ++ f) x y 0) = decodeFamily8 x y f := by
  rw [wordXYN_eq, decode]
  simp

end Sys2Proof.Machine
end

section
/-! SUPPORT. What the instructions with more than one outcome have done when they complete. -/

namespace Sys2Proof.Machine

/-- RET completes on a nonempty stack only, by popping into `pc` (40_control.md R101). -/
theorem execRet_next {s t : State} (h : execRet s = .next t) :
    ∃ top rest, s.stack = top :: rest ∧ t = setPc top (setStack rest s) := by
  unfold execRet at h
  split at h
  · cases h
  · cases h; exact ⟨_, _, ‹_›, rfl⟩

/-- A skip on a key completes for a key that exists only (45_keys_timers.md R160, R161, R166). -/
theorem skipOnKey_next {x : Reg} {want : Bool} {s t : State} (h : skipOnKey x want s = .next t) :
    ∃ k, selectedKey (reg s x) = some k ∧ t = skipIf (keyFlag s k == want) s := by
  unfold skipOnKey at h
  split at h
  · cases h
  · cases h; exact ⟨_, ‹_›, rfl⟩

/-- LD_VX_K writes the least pressed key, or goes back to its own address (45_keys_timers.md R163). -/
theorem execLdVxK_next {x : Reg} {s t : State} (h : execLdVxK x s = .next t) :
    (∃ k, firstPressed s = some k ∧ t = setReg x (BitVec.ofNat 8 k) s) ∨
      (firstPressed s = none ∧ t = setPc (fetchedFrom s) s) := by
  unfold execLdVxK at h
  split at h
  · cases h; exact .inl ⟨_, ‹_›, rfl⟩
  · cases h; exact .inr ⟨‹_›, rfl⟩

/-- DRW has drawn its sprite and then written the collision to `VF` (44_display.md R151). -/
theorem execDrw_next {x y : Reg} {n : Nibble} {s t : State} (h : execDrw x y n s = .next t) :
    t = setFlag (spriteDrawn x y n s).2 (setDisp (spriteDrawn x y n s).1 s) := (withinMemory_next_iff.mp h).2.symm

/-- What DRW draws: the cells its sprite covers are toggled, and the collision is that one of them was on
(44_display.md R151 to R153). -/
theorem spriteDrawn_toggled (x y : Reg) (n : Nibble) (s : State) :
    Toggled s.disp (SpriteCovers s x y n) (spriteDrawn x y n s) := by
  have hn : n.toNat ≤ 32 := by have := n.isLt; omega
  refine (drawSprite_toggled s.disp _ _ _ n.toNat hn).congr fun px py => ?_
  simp only [Covered, SpriteCovers, spriteBit, spriteColumn, spriteRow, effective, Fin.ext_iff, Fin.val_ofNat]

/-- The collision of DRW: a cell the sprite covers was on (44_display.md R151). -/
theorem spriteDrawn_hit_iff (x y : Reg) (n : Nibble) (s : State) :
    (spriteDrawn x y n s).2 = true ↔ ∃ px py, SpriteCovers s x y n px py ∧ cell s px py = true :=
  (spriteDrawn_toggled x y n s).2

end Sys2Proof.Machine
end

section
/-! O56: the flag writers and the destinations of every instruction (10_state.md R34). -/

namespace Sys2Proof.Machine

/-- A completing instruction changes no register but its destinations (10_state.md R34). -/
theorem exec_keepsRegsBut_destinations {i : Instr} {s t : State} (h : exec i s = .next t) :
    KeepsRegsBut (destinations i) s t := by
  cases i with
  | nop | cls | jp | jpV0 | call | ldI | addI | ldF | ldDtVx | ldStVx =>
    cases h; exact keepsRegsBut_of_v rfl _
  | seImm | sneImm | seReg | sneReg => cases h; exact keepsRegsBut_of_v (skipIf_v _ s) _
  | ldImm x | addImm x | ldReg x | orReg x | andReg x | xorReg x | ldVxDt x =>
    cases h; exact keepsRegsBut_setReg x _ s
  | rnd x => cases h; exact keepsRegsBut_setReg x _ (countDraw s)
  | addReg x | subReg x | subnReg x => cases h; exact keepsRegsBut_resultThenFlag x _ _ s
  | shr x | shl x => cases h; exact keepsRegsBut_flagThenShift x _ _ s
  | ret =>
    obtain ⟨top, rest, -, rfl⟩ := execRet_next h
    exact keepsRegsBut_of_v rfl _
  | skp | sknp =>
    obtain ⟨k, -, rfl⟩ := skipOnKey_next h
    exact keepsRegsBut_of_v (skipIf_v _ s) _
  | ldVxK x =>
    obtain ⟨k, -, rfl⟩ | ⟨-, rfl⟩ := execLdVxK_next h
    · exact keepsRegsBut_setReg x _ s
    · exact keepsRegsBut_of_v rfl _
  | drw => rw [execDrw_next h]; exact keepsRegsBut_setFlag _ (setDisp _ s)
  | ldB =>
    obtain ⟨-, rfl⟩ := withinMemory_next_iff.mp h
    exact keepsRegsBut_of_v (writeBytes_v _ _ s) _
  | stRegs =>
    obtain ⟨-, rfl⟩ := withinMemory_next_iff.mp h
    exact keepsRegsBut_of_v (storeRegs_v _ _ s) _
  | ldRegs x =>
    obtain ⟨-, rfl⟩ := withinMemory_next_iff.mp h
    exact keepsRegsBut_loadRegs _ x.isLt s

/-- SHR changes registers only; a destination other than `VF` is halved, and `VF` is the dropped bit 0
(42_alu.md R128). -/
theorem exec_shr_effect {x y : Reg} {s t : State} (h : exec (.shr x y) s = .next t) : KeepsAllBut [.regs] s t ∧
    (x ≠ 0xF#4 → (reg t 0xF#4 = if (reg s x).getLsbD 0 then 1 else 0) ∧ (reg t x).toNat = (reg s x).toNat / 2) := by
  cases h
  refine ⟨keepsAllBut_flagThenShift x _ _ s, fun hx => ⟨reg_flagThenShift_flag hx _ _ s, ?_⟩⟩
  rw [reg_flagThenShift_dest hx, toNat_shiftRight1]

/-- SHL changes registers only; a destination other than `VF` is doubled modulo 256, and `VF` is the dropped bit 7
(42_alu.md R130). -/
theorem exec_shl_effect {x y : Reg} {s t : State} (h : exec (.shl x y) s = .next t) : KeepsAllBut [.regs] s t ∧
    (x ≠ 0xF#4 → (reg t 0xF#4 = if (reg s x).getLsbD 7 then 1 else 0) ∧
      (reg t x).toNat = (reg s x).toNat * 2 % 256) := by
  cases h
  refine ⟨keepsAllBut_flagThenShift x _ _ s, fun hx => ⟨reg_flagThenShift_flag hx _ _ s, ?_⟩⟩
  rw [reg_flagThenShift_dest hx, toNat_shiftLeft1]

/-- SHR of `VF` shifts the flag it has just written, which leaves 0 (42_alu.md R133). -/
theorem exec_shr_flagReg {y : Reg} {s t : State} (h : exec (.shr 0xF#4 y) s = .next t) : reg t 0xF#4 = 0 := by
  cases h
  rw [reg_flagThenShift_self, shiftRight1_flag]

/-- SHL of `VF` shifts the flag it has just written, the old bit 7 (42_alu.md R133). -/
theorem exec_shl_flagReg {y : Reg} {s t : State} (h : exec (.shl 0xF#4 y) s = .next t) :
    reg t 0xF#4 = if (reg s 0xF#4).getLsbD 7 then 2 else 0 := by
  cases h
  rw [reg_flagThenShift_self, shiftLeft1_flag, highBit]

/-- `VF` after DRW is the collision, also with `x` or `y` = F (44_display.md R151). -/
theorem exec_drw_flag {x y : Reg} {n : Nibble} {s t : State} (h : exec (.drw x y n) s = .next t) :
    (reg t 0xF#4 = 1 ∧ ∃ px py, SpriteCovers s x y n px py ∧ cell s px py = true) ∨
    (reg t 0xF#4 = 0 ∧ ¬ ∃ px py, SpriteCovers s x y n px py ∧ cell s px py = true) := by
  rw [execDrw_next h, reg_setFlag, if_pos rfl, ← spriteDrawn_hit_iff]
  by_cases hit : (spriteDrawn x y n s).2 = true
  · exact .inl ⟨if_pos hit, hit⟩
  · exact .inr ⟨if_neg hit, hit⟩

/-- Settles O56: the frame over all 35 instructions, and for each flag writer the rule for `VF` after it. -/
theorem flagWritersAndDestinations : Obligations.FlagWritersAndDestinations :=
  ⟨fun _ _ _ => exec_keepsRegsBut_destinations,
    fun x _ s _ h => by cases h; exact reg_resultThenFlag_carryOut x _ _ _ s,
    fun x _ s _ h => by cases h; exact reg_resultThenFlag_noBorrow x _ _ _ s,
    fun x _ s _ h => by cases h; exact reg_resultThenFlag_noBorrow x _ _ _ s,
    fun x y => ⟨decode_wordXYN_family8 6#4 x y, decode_wordXYN_family8 14#4 x y⟩,
    fun _ _ _ _ => exec_shr_effect,
    fun _ _ _ _ => exec_shl_effect,
    fun _ _ _ _ hr hl => ⟨exec_shr_flagReg hr, exec_shl_flagReg hl⟩,
    fun _ _ _ _ _ => exec_drw_flag⟩

end Sys2Proof.Machine
end

section
/-! SUPPORT. Which parts of the state each instruction may write (10_state.md sections 2 to 5), as one frame over all 35. -/

namespace Sys2Proof.Machine

/-- The parts of the state an instruction may change, beyond the fetch's advance of `pc` (10_state.md sections 2 to 5);
`draws` is the model's own count (log entry 3). -/
def writtenParts : Instr → List Part
  | .nop => []
  | .cls => [.display]
  | .ret | .call _ => [.pc, .stack]
  | .jp _ | .jpV0 _ => [.pc]
  | .seImm _ _ | .sneImm _ _ | .seReg _ _ | .sneReg _ _ | .skp _ | .sknp _ => [.pc]
  | .ldImm _ _ | .addImm _ _ | .ldReg _ _ | .orReg _ _ | .andReg _ _ | .xorReg _ _ | .ldVxDt _ | .ldRegs _ => [.regs]
  | .addReg _ _ | .subReg _ _ | .shr _ _ | .subnReg _ _ | .shl _ _ => [.regs]
  | .rnd _ _ => [.regs, .draws]
  | .drw _ _ _ => [.regs, .display]
  | .ldVxK _ => [.regs, .pc]
  | .ldDtVx _ => [.delay]
  | .ldStVx _ => [.sound]
  | .ldI _ | .addI _ | .ldF _ => [.index]
  | .ldB _ | .stRegs _ => [.memory]

/-- A completing instruction changes no part of the state but the ones it writes. -/
theorem exec_keepsAllBut_writtenParts {i : Instr} {s t : State} (h : exec i s = .next t) :
    KeepsAllBut (writtenParts i) s t := by
  cases i with
  | nop => cases h; exact .refl _ s
  | cls => cases h; exact keepsAllBut_setDisp _ s
  | jp | jpV0 => cases h; exact keepsAllBut_setPc _ s
  | seImm | sneImm | seReg | sneReg => cases h; exact keepsAllBut_skipIf _ s
  | ldI | addI | ldF => cases h; exact keepsAllBut_setI _ s
  | ldDtVx => cases h; exact keepsAllBut_setDt _ s
  | ldStVx => cases h; exact keepsAllBut_setSt _ s
  | ldImm x | addImm x | ldReg x | orReg x | andReg x | xorReg x | ldVxDt x => cases h; exact keepsAllBut_setReg x _ s
  | addReg x | subReg x | subnReg x => cases h; exact keepsAllBut_resultThenFlag x _ _ s
  | shr x | shl x => cases h; exact keepsAllBut_flagThenShift x _ _ s
  | call =>
    cases h
    exact ((keepsAllBut_push _ s).mono (by simp [writtenParts])).trans
      ((keepsAllBut_setPc _ _).mono (by simp [writtenParts]))
  | ret =>
    obtain ⟨top, rest, -, rfl⟩ := execRet_next h
    exact ((keepsAllBut_setStack rest s).mono (by simp [writtenParts])).trans
      ((keepsAllBut_setPc top _).mono (by simp [writtenParts]))
  | rnd x =>
    cases h
    exact ((keepsAllBut_countDraw s).mono (by simp [writtenParts])).trans
      ((keepsAllBut_setReg x _ _).mono (by simp [writtenParts]))
  | drw =>
    rw [execDrw_next h]
    exact ((keepsAllBut_setDisp _ s).mono (by simp [writtenParts])).trans
      ((keepsAllBut_setFlag _ _).mono (by simp [writtenParts]))
  | skp | sknp =>
    obtain ⟨k, -, rfl⟩ := skipOnKey_next h
    exact keepsAllBut_skipIf _ s
  | ldVxK x =>
    obtain ⟨k, -, rfl⟩ | ⟨-, rfl⟩ := execLdVxK_next h
    · exact (keepsAllBut_setReg x _ s).mono (by simp [writtenParts])
    · exact (keepsAllBut_setPc _ s).mono (by simp [writtenParts])
  | ldB =>
    obtain ⟨-, rfl⟩ := withinMemory_next_iff.mp h
    exact keepsAllBut_writeBytes _ _ s
  | stRegs =>
    obtain ⟨-, rfl⟩ := withinMemory_next_iff.mp h
    exact keepsAllBut_storeRegs _ _ s
  | ldRegs =>
    obtain ⟨-, rfl⟩ := withinMemory_next_iff.mp h
    exact keepsAllBut_loadRegs _ _ s

/-- No instruction writes the byte-order mode (10_state.md R30). -/
theorem mode_notMem_writtenParts (i : Instr) : Part.mode ∉ writtenParts i := by cases i <;> simp [writtenParts]

/-- A completing instruction keeps the byte-order mode (20_memory.md R56). -/
theorem exec_bo {i : Instr} {s t : State} (h : exec i s = .next t) : t.bo = s.bo :=
  exec_keepsAllBut_writtenParts h .mode (mode_notMem_writtenParts i)

/-- A completing step has executed the instruction it fetched, on the state with `pc` advanced (30_encoding.md R81). -/
theorem step_next {s t : State} (h : step s = .next t) :
    ∃ op i, fetch s = some op ∧ decode op = some i ∧ exec i (advancePc s) = .next t := by
  unfold step at h
  split at h
  · cases h
  · split at h
    · cases h
    · exact ⟨_, _, ‹_›, ‹_›, h⟩

/-- A completing step keeps the byte-order mode. -/
theorem step_bo {s t : State} (h : step s = .next t) : t.bo = s.bo := by
  obtain ⟨op, i, -, -, hexec⟩ := step_next h
  exact (exec_bo hexec).trans (advancePc_bo s)

end Sys2Proof.Machine
end

section
/-! SUPPORT. What the host's operations have done when they complete, and their frames (70_reset_and_hazards.md R202). -/

namespace Sys2Proof.Machine

/-- A tick writes the two timers only (60_exceptions.md R181). -/
theorem keepsAllBut_tickTimers (s : State) : KeepsAllBut [.delay, .sound] s (tickTimers s).1 :=
  ((keepsAllBut_setDt _ s).mono (by simp)).trans ((keepsAllBut_setSt _ _).mono (by simp))

/-- `setPressed` completes within its contract by writing one key flag (60_exceptions.md R185). -/
theorem setPressed_next {k : Nat} {b : Bool} {s t : State} (h : setPressed k b s = .next t) :
    ∃ inContract : k < Config.nKeys, t = setKey (s.key.set k b inContract) s := by
  unfold setPressed at h
  split at h
  · cases h; exact ⟨‹_›, rfl⟩
  · cases h

/-- `loadProgram` completes by writing its bytes from 512 on (70_reset_and_hazards.md R194). -/
theorem loadProgram_next {bytes : List Byte} {s t : State} (h : loadProgram bytes s = .next t) :
    t = writeBytes Config.progStart bytes s := by
  unfold loadProgram writeBlock at h
  split at h
  · cases h; rfl
  · cases h

/-- Where an operation's answer runs on, the session holds the state it answered. -/
theorem runsOn_next {answer : Answer} {w : Session} {r : Reply} (h : runsOn answer = .next (w, r)) :
    ∃ t, answer = .next t ∧ w = .running t ∧ r = .done := by
  unfold runsOn at h
  split at h
  · cases h; exact ⟨_, rfl, rfl, rfl⟩
  · cases h
  · cases h

/-- A host call on a running machine, other than reset and setByteOrder, keeps the byte-order mode, the state a fatal
step leaves included (20_memory.md R56, 60_exceptions.md R176). -/
theorem call_running_bo {c : HostCall} {s : State} {w : Session} {r : Reply} (notReset : c ≠ .reset)
    (notOrder : ∀ mode, c ≠ .setByteOrder mode) (h : Session.call c (.running s) = .next (w, r)) :
    w.state.bo = s.bo := by
  cases c with
  | reset => exact absurd rfl notReset
  | setByteOrder mode => exact absurd rfl (notOrder mode)
  | loadProgram bytes =>
    obtain ⟨t, hload, rfl, -⟩ := runsOn_next h
    rw [loadProgram_next hload]
    exact keepsAllBut_writeBytes _ bytes s .mode (by simp)
  | step =>
    obtain ⟨t, hstep, rfl, -⟩ | ⟨f, code, op, a, -, -, rfl, -⟩ := stepSeen_cases h
    · exact step_bo hstep
    · exact keepsAllBut_advancePc s .mode (by simp)
  | tickTimers => cases h; exact keepsAllBut_tickTimers s .mode (by simp)
  | setPressed k b =>
    obtain ⟨t, hset, rfl, -⟩ := runsOn_next h
    obtain ⟨inContract, rfl⟩ := setPressed_next hset
    exact keepsAllBut_setKey _ s .mode (by simp)
  | snapshot => cases h; rfl

/-- After a fatal condition a call that completes is a reset or changes nothing (60_exceptions.md R177). -/
theorem call_over_next {c : HostCall} {s : State} {w : Session} {r : Reply}
    (h : Session.call c (.over s) = .next (w, r)) : c = .reset ∨ w = .over s := by
  cases c with
  | reset => exact .inl rfl
  | snapshot => cases h; exact .inr rfl
  | setByteOrder | loadProgram | step | tickTimers | setPressed => cases h

end Sys2Proof.Machine
end

section
/-! O37: the word at an address by the byte order, and who changes the order (20_memory.md R55, R56). -/

namespace Sys2Proof.Machine

/-- Where both bytes lie in memory the word is the two joined by the byte order (20_memory.md R55). -/
theorem readWord_of_le {s : State} {a : Nat} (fits : a + 1 ≤ 4095) :
    readWord s a = some (joinBytes s.bo (readByte s a) (readByte s (a + 1))) := by
  rw [readWord_eq, if_pos (by omega)]

/-- Where the second byte lies above memory there is no word (20_memory.md R57). -/
theorem readWord_of_lt {s : State} {a : Nat} (beyond : 4095 < a + 1) : readWord s a = none := by
  rw [readWord_eq, if_neg (by omega)]

/-- A host call other than reset and setByteOrder keeps the byte-order mode (20_memory.md R56). -/
theorem call_bo {c : HostCall} {w w' : Session} {r : Reply} (notReset : c ≠ .reset)
    (notOrder : ∀ mode, c ≠ .setByteOrder mode) (h : Session.call c w = .next (w', r)) : w'.state.bo = w.state.bo := by
  rcases w with s | s
  · exact call_running_bo notReset notOrder h
  · rw [(call_over_next h).resolve_left notReset]

/-- Settles O37: the word read by cases on the order, and the mode kept by the frame of every instruction and call. -/
theorem fetchFollowsByteOrder : Obligations.FetchFollowsByteOrder :=
  ⟨fun s a fits big => by rw [readWord_of_le fits, big]; rfl,
    fun s a fits little => by rw [readWord_of_le fits, little]; rfl,
    fun _ _ => readWord_of_lt,
    fun _ => rfl,
    fun mode s => ⟨rfl, setBo_bo s mode, keepsAllBut_setBo mode s⟩,
    fun _ _ _ => exec_bo,
    fun _ _ _ _ => call_bo,
    fun _ => rfl,
    reset_bo⟩

end Sys2Proof.Machine
end

section
/-! SUPPORT. The decoder by the leading nibble, and the fields of a word as numbers (30_encoding.md R71, R74). -/

namespace Sys2Proof

/-- A word as its family and its 12 low bits. -/
theorem toNat_eq_fieldsA (op : Word) : op.toNat = (fieldH op).toNat * 4096 + (fieldNNN op).toNat := by
  rw [← toNat_encodeA, encodeA_fields]

/-! The fields as the table of illegal opcodes reads them. -/

theorem toNat_fieldH (op : Word) : (fieldH op).toNat = op.toNat / 4096 := by
  have := toNat_eq_fieldsA op
  omega

theorem toNat_fieldNN (op : Word) : (fieldNN op).toNat = op.toNat % 256 := by simp [fieldNN]

theorem toNat_fieldN (op : Word) : (fieldN op).toNat = op.toNat % 16 := by simp [fieldN]

/-- The families all of whose words are instructions (30_encoding.md R77). -/
def fullFamilies : List Nibble := [0x1#4, 0x2#4, 0x3#4, 0x4#4, 0x6#4, 0x7#4, 0xA#4, 0xB#4, 0xC#4, 0xD#4]

/-- A word's family is full, or is one of the six with illegal words (30_encoding.md R77). -/
theorem family_cases (h : Nibble) :
    h ∈ fullFamilies ∨ h = 0x0#4 ∨ h = 0x5#4 ∨ h = 0x8#4 ∨ h = 0x9#4 ∨ h = 0xE#4 ∨ h = 0xF#4 := by
  revert h
  decide

/-! The decoder on the six families with illegal words. -/

variable {op : Word}

theorem decode_family0 (hf : fieldH op = 0x0#4) : decode op = decodeFamily0 (fieldNNN op) := by simp [decode, hf]

theorem decode_family5 (hf : fieldH op = 0x5#4) :
    decode op = if fieldN op = 0#4 then some (.seReg (fieldX op) (fieldY op)) else none := by simp [decode, hf]

theorem decode_family8 (hf : fieldH op = 0x8#4) : decode op = decodeFamily8 (fieldX op) (fieldY op) (fieldN op) := by
  simp [decode, hf]

theorem decode_family9 (hf : fieldH op = 0x9#4) :
    decode op = if fieldN op = 0#4 then some (.sneReg (fieldX op) (fieldY op)) else none := by simp [decode, hf]

theorem decode_familyE (hf : fieldH op = 0xE#4) : decode op = decodeFamilyE (fieldX op) (fieldNN op) := by
  simp [decode, hf]

theorem decode_familyF (hf : fieldH op = 0xF#4) : decode op = decodeFamilyF (fieldX op) (fieldNN op) := by
  simp [decode, hf]

end Sys2Proof
end

section
/-! SUPPORT. The rows of the opcode map by family and by format: which field a row of each format selects on
(30_encoding.md R73, R75). -/

namespace Sys2Proof

/-- The rows of the opcode map whose leading nibble is `h`. -/
def familyRows (h : Nibble) : List OpcodeRow := opcodeRows.filter fun r => fieldH r.pattern == h

/-- A row whose 12 low bits are all operand (formats A, XI, XYN of 30_encoding.md R73). -/
def rowOpen (h : Nibble) (id : String) : OpcodeRow := ⟨id, encodeA h 0#12, 0xF000⟩

/-- A row with no operand: every bit is fixed. -/
def rowFixed (h : Nibble) (e : String × Addr12) : OpcodeRow := ⟨e.1, encodeA h e.2, 0xFFFF⟩

/-- A row of format XY: the low nibble is fixed (30_encoding.md R73). -/
def rowXY (h : Nibble) (e : String × Nibble) : OpcodeRow := ⟨e.1, encodeXYN h 0#4 0#4 e.2, 0xF00F⟩

/-- A row of format XF: the low byte is fixed (30_encoding.md R73). -/
def rowXF (h : Nibble) (e : String × Byte) : OpcodeRow := ⟨e.1, encodeXI h 0#4 e.2, 0xF0FF⟩

/-! Words are compared field by field. -/

theorem eq_iff_fieldsA {a b : Word} : a = b ↔ fieldH a = fieldH b ∧ fieldNNN a = fieldNNN b :=
  ⟨by rintro rfl; exact ⟨rfl, rfl⟩, fun ⟨h, l⟩ => by rw [← encodeA_fields a, h, l, encodeA_fields]⟩

theorem eq_iff_fieldsXI {a b : Word} : a = b ↔ fieldH a = fieldH b ∧ fieldX a = fieldX b ∧ fieldNN a = fieldNN b :=
  ⟨by rintro rfl; exact ⟨rfl, rfl, rfl⟩, fun ⟨h, x, l⟩ => by rw [← encodeXI_fields a, h, x, l, encodeXI_fields]⟩

theorem eq_iff_fieldsXYN {a b : Word} :
    a = b ↔ fieldH a = fieldH b ∧ fieldX a = fieldX b ∧ fieldY a = fieldY b ∧ fieldN a = fieldN b :=
  ⟨by rintro rfl; exact ⟨rfl, rfl, rfl, rfl⟩,
    fun ⟨h, x, y, l⟩ => by rw [← encodeXYN_fields a, h, x, y, l, encodeXYN_fields]⟩

theorem fieldH_and (a b : Word) : fieldH (a &&& b) = fieldH a &&& fieldH b := BitVec.extractLsb'_and
theorem fieldX_and (a b : Word) : fieldX (a &&& b) = fieldX a &&& fieldX b := BitVec.extractLsb'_and
theorem fieldY_and (a b : Word) : fieldY (a &&& b) = fieldY a &&& fieldY b := BitVec.extractLsb'_and
theorem fieldN_and (a b : Word) : fieldN (a &&& b) = fieldN a &&& fieldN b := BitVec.extractLsb'_and
theorem fieldNN_and (a b : Word) : fieldNN (a &&& b) = fieldNN a &&& fieldNN b := BitVec.extractLsb'_and
theorem fieldNNN_and (a b : Word) : fieldNNN (a &&& b) = fieldNNN a &&& fieldNNN b := BitVec.extractLsb'_and

variable {op : Word} {h : Nibble}

/-- A row that fixes the leading nibble matches words of its own family only. -/
theorem fieldH_of_rowMatches {r : OpcodeRow} (fixed : fieldH r.mask = 0xF#4) (hm : rowMatches op r = true) :
    fieldH r.pattern = fieldH op := by
  rw [← eq_of_beq hm, fieldH_and, fixed]
  exact BitVec.and_allOnes

/-! A row of the word's own family matches by the field its format fixes. -/

theorem rowMatches_rowOpen (hf : fieldH op = h) (id : String) : rowMatches op (rowOpen h id) = true := by
  rw [rowMatches, beq_iff_eq, eq_iff_fieldsA, fieldH_and, fieldNNN_and]
  simp only [rowOpen, fieldH_encodeA, fieldNNN_encodeA]
  exact ⟨hf ▸ BitVec.and_allOnes, BitVec.and_zero⟩

theorem rowMatches_rowFixed (hf : fieldH op = h) (e : String × Addr12) :
    rowMatches op (rowFixed h e) = (fieldNNN op == e.2) := by
  have hm : op &&& (rowFixed h e).mask = op := BitVec.and_allOnes
  rw [Bool.eq_iff_iff, beq_iff_eq, rowMatches, beq_iff_eq, hm, eq_iff_fieldsA]
  simp [rowFixed, hf]

theorem rowMatches_rowXY (hf : fieldH op = h) (e : String × Nibble) :
    rowMatches op (rowXY h e) = (fieldN op == e.2) := by
  have hh : fieldH op &&& fieldH 0xF00F#16 = h := hf ▸ BitVec.and_allOnes
  have hx : fieldX op &&& fieldX 0xF00F#16 = 0#4 := BitVec.and_zero
  have hy : fieldY op &&& fieldY 0xF00F#16 = 0#4 := BitVec.and_zero
  have hn : fieldN op &&& fieldN 0xF00F#16 = fieldN op := BitVec.and_allOnes
  rw [Bool.eq_iff_iff, beq_iff_eq, rowMatches, beq_iff_eq, eq_iff_fieldsXYN]
  simp [rowXY, fieldH_and, fieldX_and, fieldY_and, fieldN_and, hh, hx, hy, hn]

theorem rowMatches_rowXF (hf : fieldH op = h) (e : String × Byte) :
    rowMatches op (rowXF h e) = (fieldNN op == e.2) := by
  have hh : fieldH op &&& fieldH 0xF0FF#16 = h := hf ▸ BitVec.and_allOnes
  have hx : fieldX op &&& fieldX 0xF0FF#16 = 0#4 := BitVec.and_zero
  have hn : fieldNN op &&& fieldNN 0xF0FF#16 = fieldNN op := BitVec.and_allOnes
  rw [Bool.eq_iff_iff, beq_iff_eq, rowMatches, beq_iff_eq, eq_iff_fieldsXI]
  simp [rowXF, fieldH_and, fieldX_and, fieldNN_and, hh, hx, hn]

/-- Every row of the opcode map fixes the leading nibble, so a word is compared with the rows of its family only. -/
theorem filter_opcodeRows (op : Word) :
    opcodeRows.filter (rowMatches op) = (familyRows (fieldH op)).filter (rowMatches op) := by
  have fixed : ∀ r ∈ opcodeRows, fieldH r.mask = 0xF#4 := by decide
  rw [familyRows, List.filter_filter]
  refine List.filter_congr fun r hr => ?_
  cases hm : rowMatches op r with
  | false => rfl
  | true => simp [fieldH_of_rowMatches (fixed r hr) hm]

/-- Where the rows of a list are told apart by one field of the word, the rows matched are those with its value. -/
theorem ids_filter_map {α : Type} [BEq α] {row : String × α → OpcodeRow} {v : α} (hid : ∀ e, (row e).id = e.1)
    (hm : ∀ e, rowMatches op (row e) = (v == e.2)) (es : List (String × α)) :
    ((es.map row).filter (rowMatches op)).map OpcodeRow.id = (es.filter (v == ·.2)).map Prod.fst := by
  simp only [List.filter_map, List.map_map, Function.comp_def, hid, hm]

/-! The rows of each family, by the values of the field they fix. -/

/-- Family 0: the three words with no operand. -/
def family0Words : List (String × Addr12) := [("NOP", 0x000), ("CLS", 0x0E0), ("RET", 0x0EE)]

/-- Family 8: the low nibbles. -/
def family8Nibbles : List (String × Nibble) :=
  [("LD_REG", 0x0), ("OR", 0x1), ("AND", 0x2), ("XOR", 0x3), ("ADD_REG", 0x4), ("SUB", 0x5), ("SHR", 0x6), ("SUBN", 0x7),
   ("SHL", 0xE)]

/-- Family E: the low bytes. -/
def familyEBytes : List (String × Byte) := [("SKP", 0x9E), ("SKNP", 0xA1)]

/-- Family F: the low bytes. -/
def familyFBytes : List (String × Byte) :=
  [("LD_VX_DT", 0x07), ("LD_VX_K", 0x0A), ("LD_DT_VX", 0x15), ("LD_ST_VX", 0x18), ("ADD_I", 0x1E), ("LD_F", 0x29),
   ("LD_B", 0x33), ("ST_REGS", 0x55), ("LD_REGS", 0x65)]

theorem familyRows_0 : familyRows 0x0#4 = family0Words.map (rowFixed 0x0#4) := rfl
theorem familyRows_5 : familyRows 0x5#4 = [("SE_REG", 0x0#4)].map (rowXY 0x5#4) := rfl
theorem familyRows_8 : familyRows 0x8#4 = family8Nibbles.map (rowXY 0x8#4) := rfl
theorem familyRows_9 : familyRows 0x9#4 = [("SNE_REG", 0x0#4)].map (rowXY 0x9#4) := rfl
theorem familyRows_E : familyRows 0xE#4 = familyEBytes.map (rowXF 0xE#4) := rfl
theorem familyRows_F : familyRows 0xF#4 = familyFBytes.map (rowXF 0xF#4) := rfl

/-- A full family has one row, with no fixed bit but the family's, and all its words decode to that row's instruction. -/
theorem decode_fullFamily (full : fieldH op ∈ fullFamilies) :
    ∃ i, decode op = some i ∧ familyRows (fieldH op) = [rowOpen (fieldH op) i.mnemonic] := by
  simp only [fullFamilies, List.mem_cons, List.not_mem_nil, or_false] at full
  rcases full with hf | hf | hf | hf | hf | hf | hf | hf | hf | hf <;>
    exact ⟨_, by simp only [decode, hf]; rfl, by rw [hf]; rfl⟩

/-! The values a family fixes select as its part of the decoder does: one of them, or none. -/

theorem decodeFamily0_ids (nnn : Addr12) :
    (family0Words.filter (nnn == ·.2)).map Prod.fst = (decodeFamily0 nnn).toList.map Instr.mnemonic := by
  unfold decodeFamily0
  split <;> simp_all [family0Words, Instr.mnemonic]

theorem decodeFamily8_ids (x y : Reg) (n : Nibble) :
    (family8Nibbles.filter (n == ·.2)).map Prod.fst = (decodeFamily8 x y n).toList.map Instr.mnemonic := by
  unfold decodeFamily8
  split <;> simp_all [family8Nibbles, Instr.mnemonic]

theorem decodeFamilyE_ids (x : Reg) (nn : Byte) :
    (familyEBytes.filter (nn == ·.2)).map Prod.fst = (decodeFamilyE x nn).toList.map Instr.mnemonic := by
  unfold decodeFamilyE
  split <;> simp_all [familyEBytes, Instr.mnemonic]

theorem decodeFamilyF_ids (x : Reg) (nn : Byte) :
    (familyFBytes.filter (nn == ·.2)).map Prod.fst = (decodeFamilyF x nn).toList.map Instr.mnemonic := by
  unfold decodeFamilyF
  split <;> simp_all [familyFBytes, Instr.mnemonic]

end Sys2Proof
end

section
/-! O52: the rows of the opcode map select the instruction (30_encoding.md R75). -/

namespace Sys2Proof

/-- The rows of its family that a word matches are the row of the instruction it decodes to. -/
theorem ids_familyRows (op : Word) : ((familyRows (fieldH op)).filter (rowMatches op)).map OpcodeRow.id =
    (decode op).toList.map Instr.mnemonic := by
  rcases family_cases (fieldH op) with full | hf | hf | hf | hf | hf | hf
  · obtain ⟨i, hi, hrow⟩ := decode_fullFamily full
    simp only [hrow, List.filter_cons, rowMatches_rowOpen rfl, if_true, List.filter_nil, hi]
    rfl
  · rw [hf, familyRows_0, decode_family0 hf, ids_filter_map (fun _ => rfl) (rowMatches_rowFixed hf), decodeFamily0_ids]
  · rw [hf, familyRows_5, decode_family5 hf, ids_filter_map (fun _ => rfl) (rowMatches_rowXY hf)]
    split <;> simp_all [Instr.mnemonic]
  · rw [hf, familyRows_8, decode_family8 hf, ids_filter_map (fun _ => rfl) (rowMatches_rowXY hf), decodeFamily8_ids]
  · rw [hf, familyRows_9, decode_family9 hf, ids_filter_map (fun _ => rfl) (rowMatches_rowXY hf)]
    split <;> simp_all [Instr.mnemonic]
  · rw [hf, familyRows_E, decode_familyE hf, ids_filter_map (fun _ => rfl) (rowMatches_rowXF hf), decodeFamilyE_ids]
  · rw [hf, familyRows_F, decode_familyF hf, ids_filter_map (fun _ => rfl) (rowMatches_rowXF hf), decodeFamilyF_ids]

/-- Settles O52: a word is compared with the rows of its family only, and these select as the decoder does. -/
theorem rowsSelectTheInstruction : Obligations.RowsSelectTheInstruction :=
  ⟨rfl, fun op => by rw [filter_opcodeRows, ids_familyRows]⟩

end Sys2Proof
end

section
/-! SUPPORT. Which words of each family decode to nothing, held against the table of illegal opcodes
(30_encoding.md R77). -/

namespace Sys2Proof

theorem decodeFamily0_eq_none_iff (nnn : Addr12) : decodeFamily0 nnn = none ↔ nnn.toNat ∉ [0x0000, 0x00E0, 0x00EE] := by
  unfold decodeFamily0
  split <;> simp_all [BitVec.toNat_eq]

theorem decodeFamily8_eq_none_iff (x y : Reg) (n : Nibble) :
    decodeFamily8 x y n = none ↔ n.toNat ∈ [0x8, 0x9, 0xA, 0xB, 0xC, 0xD, 0xF] := by
  unfold decodeFamily8
  split <;> simp_all [BitVec.toNat_eq]
  omega

theorem decodeFamilyE_eq_none_iff (x : Reg) (nn : Byte) : decodeFamilyE x nn = none ↔ nn.toNat ∉ [0x9E, 0xA1] := by
  unfold decodeFamilyE
  split <;> simp_all [BitVec.toNat_eq]

theorem decodeFamilyF_eq_none_iff (x : Reg) (nn : Byte) :
    decodeFamilyF x nn = none ↔ nn.toNat ∉ [0x07, 0x0A, 0x15, 0x18, 0x1E, 0x29, 0x33, 0x55, 0x65] := by
  unfold decodeFamilyF
  split <;> simp_all [BitVec.toNat_eq]

variable {op : Word}

theorem legalWord_of_fullFamily (full : fieldH op ∈ fullFamilies) : WellFormed.legalWord op = true := by
  have listed : ∀ h ∈ fullFamilies, h.toNat ∈ [1, 2, 3, 4, 6, 7, 10, 11, 12, 13] := by decide
  exact Laws.legalWord_of_family _ _ (toNat_eq_fieldsA op) (fieldNNN op).isLt (listed _ full)

theorem legalWord_family8 (hf : fieldH op = 0x8#4) :
    WellFormed.legalWord op = decide ((fieldN op).toNat ∉ [0x8, 0x9, 0xA, 0xB, 0xC, 0xD, 0xF]) := by
  simp [WellFormed.legalWord, ← toNat_fieldH, ← toNat_fieldN, hf]

/-- Family by family, the decoder has no instruction exactly where the table lists the word. -/
theorem decode_eq_none_iff_illegal (op : Word) : decode op = none ↔ WellFormed.legalWord op = false := by
  rcases family_cases (fieldH op) with full | hf | hf | hf | hf | hf | hf
  · obtain ⟨i, hi, -⟩ := decode_fullFamily full
    simp [hi, legalWord_of_fullFamily full]
  · have low : op.toNat = (fieldNNN op).toNat := by simpa [hf] using toNat_eq_fieldsA op
    rw [decode_family0 hf, decodeFamily0_eq_none_iff, ← low]
    simp [WellFormed.legalWord, ← toNat_fieldH, hf]
  · rw [decode_family5 hf]
    simp [WellFormed.legalWord, ← toNat_fieldH, ← toNat_fieldN, hf, BitVec.toNat_eq]
  · rw [decode_family8 hf, decodeFamily8_eq_none_iff]
    rw [legalWord_family8 hf, decide_eq_false_iff_not, not_not]
  · rw [decode_family9 hf]
    simp [WellFormed.legalWord, ← toNat_fieldH, ← toNat_fieldN, hf, BitVec.toNat_eq]
  · rw [decode_familyE hf, decodeFamilyE_eq_none_iff]
    simp [WellFormed.legalWord, ← toNat_fieldH, ← toNat_fieldNN, hf]
  · rw [decode_familyF hf, decodeFamilyF_eq_none_iff]
    simp [WellFormed.legalWord, ← toNat_fieldH, ← toNat_fieldNN, hf]

end Sys2Proof
end

section
/-! SUPPORT. What a step does, by what it fetches and what that decodes to (30_encoding.md R81). -/

namespace Sys2Proof.Machine

variable {s : State} {op : Word}

theorem step_of_fetch_none (hf : fetch s = none) : step s = .fault .memRange := by
  simp [step, hf]

theorem step_of_decode_none (hf : fetch s = some op) (hd : decode op = none) :
    step s = .fault (.unimplementedOpcode op s.pc) := by
  simp [step, hf, hd, raiseUnimplemented]

theorem step_of_decode_some {i : Instr} (hf : fetch s = some op) (hd : decode op = some i) :
    step s = exec i (advancePc s) := by
  simp [step, hf, hd]

end Sys2Proof.Machine
end

section
/-! O32, O53: the step through the decoder, and the illegal words (30_encoding.md R77, R81). -/

namespace Sys2Proof.Machine

/-- Settles O32: by what the fetch finds, and what that decodes to. -/
theorem stepRunsTheDecodedInstruction : Obligations.StepRunsTheDecodedInstruction :=
  ⟨fun _ beyond => step_of_fetch_none (readWord_of_lt (by omega)),
    fun _ fits => readWord_of_le (by omega),
    fun _ _ => step_of_decode_none,
    fun _ _ _ => step_of_decode_some⟩

/-- Settles O53: the decoder and the table agree family by family, and the step raises what does not decode. -/
theorem illegalWordsAreTheTable : Obligations.IllegalWordsAreTheTable :=
  ⟨decode_eq_none_iff_illegal,
    fun _ op hf illegal => step_of_decode_none hf ((decode_eq_none_iff_illegal op).mpr illegal)⟩

end Sys2Proof.Machine
end

section
/-! SUPPORT. The control transfers one by one: their words, the targets as numbers, what each meaning answers, and what
the host sees of a fatal step (40_control.md). -/

namespace Sys2Proof.Machine

/-! The words of the family 0 and of the three jumps (30_encoding.md R75, R79). -/

/-- A word `0nnn` decodes as the family 0 does. -/
theorem decode_wordA_family0 (nnn : Addr12) : decode (wordA (0x0#4 ++ 0#12) nnn) = decodeFamily0 nnn := by
  rw [wordA_eq, decode_family0 (fieldH_encodeA _ _), fieldNNN_encodeA]

theorem decode_wordA_jp (nnn : Addr12) : decode (wordA (0x1#4 ++ 0#12) nnn) = some (.jp nnn) := by
  rw [wordA_eq, decode]
  simp

theorem decode_wordA_call (nnn : Addr12) : decode (wordA (0x2#4 ++ 0#12) nnn) = some (.call nnn) := by
  rw [wordA_eq, decode]
  simp

theorem decode_wordA_jpV0 (nnn : Addr12) : decode (wordA (0xB#4 ++ 0#12) nnn) = some (.jpV0 nnn) := by
  rw [wordA_eq, decode]
  simp

/-! The targets as numbers. -/

@[simp] theorem toNat_absolute (nnn : Addr12) : (absolute nnn).toNat = nnn.toNat :=
  BitVec.toNat_setWidth_of_le (by decide)

/-- The 16-bit addition of `V0` and `nnn` never wraps (40_control.md R104). -/
@[simp] theorem toNat_indexedTarget (s : State) (nnn : Addr12) :
    (indexedTarget s nnn).toNat = (reg s 0).toNat + nnn.toNat := by
  have exact8 : ((reg s 0).setWidth 16).toNat = (reg s 0).toNat := BitVec.toNat_setWidth_of_le (by decide)
  rw [indexedTarget, BitVec.toNat_add, exact8, toNat_absolute]
  have := (reg s 0).isLt
  have := nnn.isLt
  omega

/-! What each meaning answers. -/

variable (s : State)

theorem exec_nop : exec .nop s = .next s := rfl

theorem exec_jp (nnn : Addr12) : exec (.jp nnn) s = .next (setPc (absolute nnn) s) := rfl

theorem exec_jpV0 (nnn : Addr12) : exec (.jpV0 nnn) s = .next (setPc (indexedTarget s nnn) s) := rfl

/-- With the default, unbounded `STACK_CAPACITY` a CALL completes in every state (40_control.md R103). -/
theorem exec_call (nnn : Addr12) : exec (.call nnn) s = .next (setPc (absolute nnn) (push s.pc s)) := rfl

variable {s}

theorem exec_ret_of_cons {top : Word} {rest : List Word} (h : s.stack = top :: rest) :
    exec .ret s = .next (setPc top (setStack rest s)) := by
  rw [exec, execRet, h]

theorem exec_ret_of_nil (h : s.stack = []) : exec .ret s = .fault (.stackUnderflow 0x00EE#16 (s.pc - 2)) := by
  rw [exec, execRet, h]
  rfl

/-! Steps. -/

/-- Writing into `pc` what it holds changes nothing. -/
theorem setPc_of_pc_eq {b : Word} (h : s.pc = b) : setPc b s = s := by
  subst h
  rfl

/-- A jump overwrites the fetch's advance. -/
theorem setPc_advancePc (b : Word) : setPc b (advancePc s) = setPc b s := rfl

/-- From an address above 4094 there is no fetch (30_encoding.md R81, 20_memory.md R57). -/
theorem step_of_pc_gt (h : 4094 < s.pc.toNat) : step s = .fault .memRange :=
  step_of_fetch_none (readWord_of_lt (by omega))

/-- A fatal condition reaches the host with its diagnostic, and the run is over (60_exceptions.md R173, R176). -/
theorem stepSeen_fault {f : Fault} {code : Nat} {op a : Word} (h : diagnostic f = some (code, op, a)) :
    stepSeen s (.fault f) = .next (.over (leftByFatal s), .fatal code op a) := by
  rw [stepSeen, h]

/-- A fetched RET on an empty stack is fatal at its own address (60_exceptions.md R172, R173). -/
theorem step_ret_of_nil (hf : fetch s = some 0x00EE#16) (h : s.stack = []) :
    step s = .fault (.stackUnderflow 0x00EE#16 s.pc) := by
  have hx : exec .ret (advancePc s) = .fault (.stackUnderflow 0x00EE#16 (s.pc + 2 - 2)) := exec_ret_of_nil h
  rw [step_of_decode_some hf rfl, hx, BitVec.add_sub_cancel]

end Sys2Proof.Machine
end

section
/-! O1, O2, O3, O4, O6: the control transfers (40_control.md R100 to R104). -/

namespace Sys2Proof.Machine

/-- Settles O1: of the words of family 0 only three decode, and a fetched NOP leaves the state the fetch has advanced. -/
theorem nopOnlyAdvancesPc : Obligations.NopOnlyAdvancesPc := by
  refine ⟨rfl, fun nnn notNop notCls notRet => ?_, exec_nop, fun s hf => ?_⟩
  · rw [show 0x0000#16 = 0x0#4 ++ 0#12 from rfl, decode_wordA_family0, decodeFamily0_eq_none_iff]
    have other : nnn ≠ 0x000#12 ∧ nnn ≠ 0x0E0#12 ∧ nnn ≠ 0x0EE#12 := ⟨notNop, notCls, notRet⟩
    simpa [BitVec.toNat_eq] using other
  · exact ⟨advancePc s, step_of_decode_some hf rfl, advancePc_pc s, keepsAllBut_advancePc s⟩

/-- Settles O2: by cases on the stack; the fatal step is seen by the host through its diagnostic. -/
theorem returnPopsIntoPc : Obligations.ReturnPopsIntoPc := by
  refine ⟨rfl, fun s top rest h => ?_, fun s => exec_ret_of_nil, fun s hf h => ?_⟩
  · have hx := exec_ret_of_cons h
    exact ⟨_, hx, rfl, rfl, exec_keepsAllBut_writtenParts hx⟩
  · refine ⟨leftByFatal s, ?_, advancePc_pc s, h, keepsAllBut_advancePc s⟩
    have seen : Session.call .step (.running s) = stepSeen s (step s) := rfl
    rw [seen, step_ret_of_nil hf h, stepSeen_fault rfl]

/-- Settles O3: a jump to itself writes back the `pc` its fetch had, and from 4095 there is no fetch. -/
theorem jumpIsAbsolute : Obligations.JumpIsAbsolute := by
  refine fun nnn => ⟨decode_wordA_jp nnn, fun s => ?_, fun s hf self => ?_, fun s t top hx => ?_⟩
  · exact ⟨_, exec_jp s nnn, toNat_absolute nnn, keepsAllBut_setPc _ s⟩
  · rw [step_of_decode_some hf (decode_wordA_jp nnn), exec_jp, setPc_advancePc,
      setPc_of_pc_eq (b := absolute nnn) self]
  · subst top
    cases hx
    exact step_of_pc_gt (show 4094 < (absolute 0xFFF#12).toNat by decide)

/-- Settles O4: the meaning on any state, and for a fetched CALL on the state the fetch has advanced. -/
theorem callPushesReturnAddress : Obligations.CallPushesReturnAddress := by
  refine fun nnn => ⟨decode_wordA_call nnn, fun s => ?_, fun s hf => ?_⟩
  · exact ⟨_, exec_call s nnn, rfl, toNat_absolute nnn, exec_keepsAllBut_writtenParts (exec_call s nnn)⟩
  · have called := exec_call (advancePc s) nnn
    have advanced : KeepsAllBut [.pc, .stack] s (advancePc s) := (keepsAllBut_advancePc s).mono (by simp)
    exact ⟨_, (step_of_decode_some hf (decode_wordA_call nnn)).trans called, rfl, toNat_absolute nnn,
      advanced.trans (exec_keepsAllBut_writtenParts called)⟩

/-- Settles O6: the target is the exact sum, and above 4094 there is no fetch. -/
theorem jumpPlusV0 : Obligations.JumpPlusV0 := by
  refine fun nnn => ⟨decode_wordA_jpV0 nnn, fun s => ?_, fun s t beyond hx => ?_⟩
  · exact ⟨_, exec_jpV0 s nnn, toNat_indexedTarget s nnn, keepsAllBut_setPc _ s⟩
  · cases hx
    exact step_of_pc_gt (by rwa [setPc_pc, toNat_indexedTarget])

end Sys2Proof.Machine
end

section
/-! SUPPORT. The conditional skips: their words, what each meaning answers, the two skips on a condition and on its
negation, and that each skips by the rules' own condition (41_skip.md, 45_keys_timers.md R160, R161). -/

namespace Sys2Proof.Machine

/-! The words of the families 3, 4, 5 and 9 (30_encoding.md R75, R77). -/

theorem decode_wordXI_seImm (x : Reg) (nn : Byte) :
    decode (wordXI (0x3#4 ++ 0#4 ++ 0#8) x nn) = some (.seImm x nn) := by
  rw [wordXI_eq, decode]
  simp

theorem decode_wordXI_sneImm (x : Reg) (nn : Byte) :
    decode (wordXI (0x4#4 ++ 0#4 ++ 0#8) x nn) = some (.sneImm x nn) := by
  rw [wordXI_eq, decode]
  simp

/-- A word `5xyn` decodes exactly when its low nibble is 0. -/
theorem decode_wordXYN_family5 (x y : Reg) (n : Nibble) :
    decode (wordXYN (0x5#4 ++ 0#8 ++ 0#4) x y n) = if n = 0#4 then some (.seReg x y) else none := by
  rw [wordXYN_eq, decode_family5 (fieldH_encodeXYN _ _ _ _)]
  simp

/-- A word `9xyn` decodes exactly when its low nibble is 0. -/
theorem decode_wordXYN_family9 (x y : Reg) (n : Nibble) :
    decode (wordXYN (0x9#4 ++ 0#8 ++ 0#4) x y n) = if n = 0#4 then some (.sneReg x y) else none := by
  rw [wordXYN_eq, decode_family9 (fieldH_encodeXYN _ _ _ _)]
  simp

variable {s : State}

/-! What each meaning answers. -/

@[simp] theorem skipIf_pc (c : Bool) : (skipIf c s).pc = if c then s.pc + 2 else s.pc := by rw [skipIf_eq, setPc_pc]

theorem exec_seImm (x : Reg) (nn : Byte) : exec (.seImm x nn) s = .next (skipIf (reg s x = nn) s) := rfl

theorem exec_sneImm (x : Reg) (nn : Byte) : exec (.sneImm x nn) s = .next (skipIf (reg s x ≠ nn) s) := rfl

theorem exec_seReg (x y : Reg) : exec (.seReg x y) s = .next (skipIf (reg s x = reg s y) s) := rfl

theorem exec_sneReg (x y : Reg) : exec (.sneReg x y) s = .next (skipIf (reg s x ≠ reg s y) s) := rfl

/-- A value up to 15 selects its key, and the skip compares that key's flag (45_keys_timers.md R160, R161). -/
theorem skipOnKey_of_selects {x : Reg} {k : Fin Config.nKeys} (h : (reg s x).toNat = k.1) (want : Bool) :
    skipOnKey x want s = .next (skipIf (keyFlag s k == want) s) := by
  rw [skipOnKey, (selectedKey_eq_some_iff _ _).mpr h]

theorem exec_skp {x : Reg} {k : Fin Config.nKeys} (h : (reg s x).toNat = k.1) :
    exec (.skp x) s = .next (skipIf (keyFlag s k = true) s) := by
  have selected : exec (.skp x) s = _ := skipOnKey_of_selects h true
  simpa using selected

theorem exec_sknp {x : Reg} {k : Fin Config.nKeys} (h : (reg s x).toNat = k.1) :
    exec (.sknp x) s = .next (skipIf (keyFlag s k ≠ true) s) := by
  have selected : exec (.sknp x) s = _ := skipOnKey_of_selects h false
  simpa using selected

/-- Of a skip on a condition and a skip on its negation exactly one skips, and both change `pc` only. -/
theorem exec_complementary_skips {i j : Instr} {p : Prop} [Decidable p] (hi : exec i s = .next (skipIf p s))
    (hj : exec j s = .next (skipIf (¬ p) s)) : ∃ t u, exec i s = .next t ∧ exec j s = .next u ∧
      t.pc = (if p then s.pc + 2 else s.pc) ∧ u.pc = (if p then s.pc else s.pc + 2) ∧
      KeepsAllBut [.pc] s t ∧ KeepsAllBut [.pc] s u :=
  ⟨_, _, hi, hj, by simp, by simp, keepsAllBut_skipIf _ s, keepsAllBut_skipIf _ s⟩

/-! The skips by the rules' own condition. -/

theorem pressed_iff_keyFlag (k : Fin Config.nKeys) : pressed s k.1 ↔ keyFlag s k = true :=
  ⟨fun ⟨_, down⟩ => down, fun down => ⟨k.2, down⟩⟩

/-- Every value up to 15 is the number of a key. -/
theorem exists_key_of_le {b : Byte} (h : b.toNat ≤ 15) : ∃ k : Fin Config.nKeys, b.toNat = k.1 :=
  ⟨⟨b.toNat, Nat.lt_succ_of_le h⟩, rfl⟩

/-- The condition reads registers and keys, which the fetch's advance keeps. -/
theorem skipCondition_advancePc (i : Instr) : skipCondition i (advancePc s) = skipCondition i s := by cases i <;> rfl

/-- An instruction that has a skip condition completes, and skips exactly when the condition holds (41_skip.md R114). -/
theorem exec_of_skipCondition {i : Instr} {c : Prop} (h : skipCondition i s = some c) :
    ∃ taken : Bool, (taken = true ↔ c) ∧ exec i s = .next (skipIf taken s) := by
  cases i with
  | seImm x nn => cases h; exact ⟨_, decide_eq_true_iff, exec_seImm x nn⟩
  | sneImm x nn => cases h; exact ⟨_, decide_eq_true_iff, exec_sneImm x nn⟩
  | seReg x y => cases h; exact ⟨_, decide_eq_true_iff, exec_seReg x y⟩
  | sneReg x y => cases h; exact ⟨_, decide_eq_true_iff, exec_sneReg x y⟩
  | skp x =>
    obtain ⟨inRange, hc⟩ := Option.ite_none_right_eq_some.mp h
    obtain ⟨k, hk⟩ := exists_key_of_le inRange
    cases hc
    exact ⟨_, by rw [hk, pressed_iff_keyFlag, decide_eq_true_iff], exec_skp hk⟩
  | sknp x =>
    obtain ⟨inRange, hc⟩ := Option.ite_none_right_eq_some.mp h
    obtain ⟨k, hk⟩ := exists_key_of_le inRange
    cases hc
    exact ⟨_, by rw [hk, pressed_iff_keyFlag, decide_eq_true_iff], exec_sknp hk⟩
  | _ => cases h

/-- A fetched skip leaves the state the fetch has advanced, advanced once more exactly when its condition held. -/
theorem step_of_skipCondition {op : Word} {i : Instr} {c : Prop} (hf : fetch s = some op) (hd : decode op = some i)
    (hc : skipCondition i s = some c) :
    ∃ taken : Bool, (taken = true ↔ c) ∧ step s = .next (skipIf taken (advancePc s)) := by
  rw [step_of_decode_some hf hd]
  exact exec_of_skipCondition ((skipCondition_advancePc i).trans hc)

/-- The fetch's advance and the skip's: `a + 4` or `a + 2`. -/
theorem skipIf_advancePc_pc (taken : Bool) :
    (skipIf taken (advancePc s)).pc = if taken then s.pc + 4 else s.pc + 2 := by
  rw [skipIf_pc, advancePc_pc, BitVec.add_assoc]
  rfl

end Sys2Proof.Machine
end

section
/-! O8, O9, O10: the conditional skips (41_skip.md R110 to R114). -/

namespace Sys2Proof.Machine

/-- Settles O10: the fetch advances `pc` once, the skip once more when taken, and from 4098 there is no fetch. -/
theorem skipPassesOneWord : Obligations.SkipPassesOneWord := by
  intro s op i c hf hd hc
  obtain ⟨taken, holds, hs⟩ := step_of_skipCondition hf hd hc
  have pcOf := skipIf_advancePc_pc (s := s) taken
  have pcTaken : c → (skipIf taken (advancePc s)).pc = s.pc + 4 := fun h => by rw [pcOf, if_pos (holds.mpr h)]
  refine ⟨_, hs, (keepsAllBut_advancePc s).trans (keepsAllBut_skipIf _ _), pcTaken, fun h => ?_, fun h atEnd => ?_⟩
  · rw [pcOf, if_neg (mt holds.mp h)]
  · have pcEnd : (skipIf taken (advancePc s)).pc = 4098#16 := by rw [pcTaken h, atEnd]; rfl
    exact ⟨pcEnd, step_of_pc_gt (by rw [pcEnd]; decide)⟩

/-- Settles O8: the two words decode, and the two meanings skip on a condition and on its negation. -/
theorem skipsOnImmediate : Obligations.SkipsOnImmediate := fun x nn =>
  ⟨decode_wordXI_seImm x nn, decode_wordXI_sneImm x nn,
    fun _ => exec_complementary_skips (exec_seImm x nn) (exec_sneImm x nn)⟩

/-- Settles O9: both families decode by the low nibble, and the two meanings skip on a condition and on its negation. -/
theorem skipsOnRegisters : Obligations.SkipsOnRegisters := fun x y =>
  ⟨decode_wordXYN_family5 x y 0, decode_wordXYN_family9 x y 0,
    fun n illegal => ⟨(decode_wordXYN_family5 x y n).trans (if_neg illegal),
      (decode_wordXYN_family9 x y n).trans (if_neg illegal)⟩,
    fun _ => exec_complementary_skips (exec_seReg x y) (exec_sneReg x y)⟩

end Sys2Proof.Machine
end

section
/-! SUPPORT. The ALU instructions one by one: their words, what each meaning answers, and the 8-bit results and dropped
bits as numbers (42_alu.md). -/

namespace Sys2Proof.Machine

/-! The words of the families 6, 7 and C (30_encoding.md R75); those of family 8 are `decode_wordXYN_family8`. -/

theorem decode_wordXI_ldImm (x : Reg) (nn : Byte) :
    decode (wordXI (0x6#4 ++ 0#4 ++ 0#8) x nn) = some (.ldImm x nn) := by
  rw [wordXI_eq, decode]
  simp

theorem decode_wordXI_addImm (x : Reg) (nn : Byte) :
    decode (wordXI (0x7#4 ++ 0#4 ++ 0#8) x nn) = some (.addImm x nn) := by
  rw [wordXI_eq, decode]
  simp

theorem decode_wordXI_rnd (x : Reg) (nn : Byte) :
    decode (wordXI (0xC#4 ++ 0#4 ++ 0#8) x nn) = some (.rnd x nn) := by
  rw [wordXI_eq, decode]
  simp

/-! What each meaning answers. -/

variable (s : State)

theorem exec_ldImm (x : Reg) (nn : Byte) : exec (.ldImm x nn) s = .next (setReg x nn s) := rfl

theorem exec_addImm (x : Reg) (nn : Byte) : exec (.addImm x nn) s = .next (setReg x (sum8 (reg s x) nn) s) := rfl

theorem exec_ldReg (x y : Reg) : exec (.ldReg x y) s = .next (setReg x (reg s y) s) := rfl

theorem exec_orReg (x y : Reg) : exec (.orReg x y) s = .next (setReg x (reg s x ||| reg s y) s) := rfl

theorem exec_andReg (x y : Reg) : exec (.andReg x y) s = .next (setReg x (reg s x &&& reg s y) s) := rfl

theorem exec_xorReg (x y : Reg) : exec (.xorReg x y) s = .next (setReg x (reg s x ^^^ reg s y) s) := rfl

theorem exec_addReg (x y : Reg) : exec (.addReg x y) s =
    .next (resultThenFlag x (sum8 (reg s x) (reg s y)) (carryOut (reg s x) (reg s y)) s) := rfl

theorem exec_subReg (x y : Reg) : exec (.subReg x y) s =
    .next (resultThenFlag x (difference8 (reg s x) (reg s y)) (noBorrow (reg s x) (reg s y)) s) := rfl

theorem exec_subnReg (x y : Reg) : exec (.subnReg x y) s =
    .next (resultThenFlag x (difference8 (reg s y) (reg s x)) (noBorrow (reg s y) (reg s x)) s) := rfl

theorem exec_shr (x y : Reg) : exec (.shr x y) s = .next (flagThenShift x (lowBit (reg s x)) shiftRight1 s) := rfl

theorem exec_shl (x y : Reg) : exec (.shl x y) s = .next (flagThenShift x (highBit (reg s x)) shiftLeft1 s) := rfl

theorem exec_rnd (x : Reg) (nn : Byte) :
    exec (.rnd x nn) s = .next (setReg x (Config.randomByte s.draws &&& nn) (countDraw s)) := rfl

/-! The results. -/

theorem reg_setReg_self (x : Reg) (b : Byte) : reg (setReg x b s) x = b := by rw [reg_setReg, if_pos rfl]

theorem toNat_sum8 (a b : Byte) : (sum8 a b).toNat = (a.toNat + b.toNat) % 256 := BitVec.toNat_ofNat _ _

/-- The exact difference reduced modulo 256 is the subtraction of bytes (42_alu.md R127, R132). -/
theorem difference8_eq_sub (a b : Byte) : difference8 a b = a - b := by
  apply BitVec.eq_of_toNat_eq
  have := b.isLt
  rw [difference8, BitVec.toNat_ofNat, BitVec.toNat_sub]
  omega

/-- The flag of SHR is the value modulo 2 (42_alu.md R128). -/
theorem toNat_lowBit_flag (a : Byte) : (if lowBit a then 1 else 0 : Byte).toNat = a.toNat % 2 := by
  rw [lowBit, BitVec.getLsbD, Nat.testBit_zero]
  obtain h | h := Nat.mod_two_eq_zero_or_one a.toNat
  all_goals simp [h]

/-- The flag of SHL is the value's top bit, its quotient by 128 (42_alu.md R130). -/
theorem toNat_highBit_flag (a : Byte) : (if highBit a then 1 else 0 : Byte).toNat = a.toNat / 128 := by
  have := a.isLt
  rw [highBit, BitVec.getLsbD, Nat.testBit_eq_decide_div_mod_eq]
  obtain h | h : a.toNat / 128 = 0 ∨ a.toNat / 128 = 1 := by omega
  all_goals simp [h]

/-- With `VF` as destination SHL ends with twice the old top bit (42_alu.md R133). -/
theorem toNat_shiftLeft1_highBit_flag (a : Byte) :
    (shiftLeft1 (if highBit a then 1 else 0)).toNat = 2 * (a.toNat / 128) := by
  have := a.isLt
  rw [toNat_shiftLeft1, toNat_highBit_flag]
  omega

/-- What lies under the mask has no bit outside it. -/
theorem and_and_not_self (a b : Byte) : a &&& b &&& ~~~b = 0 := by rw [BitVec.and_assoc, BitVec.and_not_self]; simp

/-- Only RND counts a draw (42_alu.md R131). -/
theorem draws_notMem_writtenParts {i : Instr} (notRnd : ∀ x nn, i ≠ .rnd x nn) : Part.draws ∉ writtenParts i := by
  cases i with
  | rnd x nn => exact absurd rfl (notRnd x nn)
  | _ => simp [writtenParts]

end Sys2Proof.Machine
end

section
/-! O11 to O16, O18: the ALU and register instructions (42_alu.md R120 to R131). -/

namespace Sys2Proof.Machine

/-- Settles O11: each load is one register write. -/
theorem loadsSetOneRegister : Obligations.LoadsSetOneRegister := fun x y nn =>
  ⟨decode_wordXI_ldImm x nn, decode_wordXYN_family8 0#4 x y, fun s =>
    ⟨_, _, exec_ldImm s x nn, exec_ldReg s x y, reg_setReg_self s x _, reg_setReg_self s x _,
      keepsRegsBut_setReg x _ s, keepsRegsBut_setReg x _ s, keepsAllBut_setReg x _ s, keepsAllBut_setReg x _ s⟩⟩

/-- Settles O12: one register write, of the sum modulo 256. -/
theorem addImmediateWraps : Obligations.AddImmediateWraps := by
  refine fun x nn => ⟨decode_wordXI_addImm x nn, fun s =>
    ⟨_, exec_addImm s x nn, ?_, keepsRegsBut_setReg x _ s, keepsAllBut_setReg x _ s⟩⟩
  rw [reg_setReg_self, toNat_sum8]

/-- Settles O13: each is one register write, of the word-wide operation, which acts bit by bit. -/
theorem logicIsBitwise : Obligations.LogicIsBitwise := by
  refine fun x y => ⟨decode_wordXYN_family8 1#4 x y, decode_wordXYN_family8 2#4 x y, decode_wordXYN_family8 3#4 x y,
    fun s => ⟨_, _, _, exec_orReg s x y, exec_andReg s x y, exec_xorReg s x y,
      fun k => ?_, fun k => ?_, fun k => ?_,
      keepsRegsBut_setReg x _ s, keepsRegsBut_setReg x _ s, keepsRegsBut_setReg x _ s,
      keepsAllBut_setReg x _ s, keepsAllBut_setReg x _ s, keepsAllBut_setReg x _ s⟩⟩
  · rw [reg_setReg_self, BitVec.getLsbD_or]
  · rw [reg_setReg_self, BitVec.getLsbD_and]
  · rw [reg_setReg_self, BitVec.getLsbD_xor]

/-- Settles O14: the sum is written first and the carry last, so that `VF` holds the carry whatever `x` is. -/
theorem addSetsCarry : Obligations.AddSetsCarry := by
  refine fun x y => ⟨decode_wordXYN_family8 4#4 x y, fun s =>
    ⟨_, exec_addReg s x y, fun notF => ?_, reg_resultThenFlag_carryOut x _ _ _ s,
      keepsRegsBut_resultThenFlag x _ _ s, keepsAllBut_resultThenFlag x _ _ s⟩⟩
  rw [reg_resultThenFlag_dest notF, toNat_sum8]

/-- Settles O15: the difference is written first and NOT borrow last, so that `VF` holds the flag whatever `x` is. -/
theorem subtractionsSetNoBorrow : Obligations.SubtractionsSetNoBorrow := by
  refine fun x y => ⟨decode_wordXYN_family8 5#4 x y, decode_wordXYN_family8 7#4 x y, fun s =>
    ⟨_, _, exec_subReg s x y, exec_subnReg s x y, fun notF => ?_, fun notF => ?_,
      reg_resultThenFlag_noBorrow x _ _ _ s, reg_resultThenFlag_noBorrow x _ _ _ s,
      keepsRegsBut_resultThenFlag x _ _ s, keepsRegsBut_resultThenFlag x _ _ s,
      keepsAllBut_resultThenFlag x _ _ s, keepsAllBut_resultThenFlag x _ _ s⟩⟩
  · rw [reg_resultThenFlag_dest notF, difference8_eq_sub]
  · rw [reg_resultThenFlag_dest notF, difference8_eq_sub]

/-- Settles O16: the dropped bit is written first and the shift last, so that with `x = F` the shift acts on that bit. -/
theorem shiftsByOneKeepDroppedBit : Obligations.ShiftsByOneKeepDroppedBit := by
  refine fun x y => ⟨decode_wordXYN_family8 6#4 x y, decode_wordXYN_family8 14#4 x y, fun s =>
    ⟨_, _, exec_shr s x y, exec_shl s x y, fun notF => ⟨?_, ?_⟩, fun notF => ⟨?_, ?_⟩, fun isF => ?_,
      keepsRegsBut_flagThenShift x _ _ s, keepsRegsBut_flagThenShift x _ _ s,
      keepsAllBut_flagThenShift x _ _ s, keepsAllBut_flagThenShift x _ _ s⟩⟩
  · rw [reg_flagThenShift_dest notF, toNat_shiftRight1]
  · rw [reg_flagThenShift_flag notF, toNat_lowBit_flag]
  · rw [reg_flagThenShift_dest notF, toNat_shiftLeft1]
  · rw [reg_flagThenShift_flag notF, toNat_highBit_flag]
  · subst isF
    constructor
    · rw [reg_flagThenShift_self, shiftRight1_flag]
      rfl
    · rw [reg_flagThenShift_self, toNat_shiftLeft1_highBit_flag]

/-- Settles O18: RND counts one draw and writes the masked byte, of which nothing is known but the mask; the other
instructions do not write the count. -/
theorem randomByteIsMasked : Obligations.RandomByteIsMasked := by
  refine ⟨fun x nn => ⟨decode_wordXI_rnd x nn, fun s => ?_⟩, fun i s t notRnd hx => ?_⟩
  · have hx := exec_rnd s x nn
    have drawn := reg_setReg_self (countDraw s) x (Config.randomByte s.draws &&& nn)
    exact ⟨_, hx, drawn, by rw [drawn, and_and_not_self], rfl,
      exec_keepsRegsBut_destinations hx, exec_keepsAllBut_writtenParts hx⟩
  · exact exec_keepsAllBut_writtenParts hx .draws (draws_notMem_writtenParts notRnd)

end Sys2Proof.Machine
end

section
/-! SUPPORT. The index and memory instructions one by one: their words, the index values as numbers, what each meaning
answers within memory and beyond it, and which bytes and registers the block transfers move (43_index_memory.md). -/

namespace Sys2Proof.Machine

/-! The words of the family A, and of the family F, selected by the low byte (30_encoding.md R75). -/

theorem decode_wordA_ldI (nnn : Addr12) : decode (wordA (0xA#4 ++ 0#12) nnn) = some (.ldI nnn) := by
  rw [wordA_eq, decode]
  simp

/-- The word `Fxnn` decodes by its low byte. -/
theorem decode_wordXF_familyF (nn : Byte) (x : Reg) :
    decode (wordXF (0xF#4 ++ 0#4 ++ nn) x) = decodeFamilyF x nn := by
  rw [wordXF_eq, decode_familyF (fieldH_encodeXI _ _ _), fieldX_encodeXI, fieldNN_encodeXI]

/-! The index values as numbers. -/

/-- A byte zero-extended is the same number (30_encoding.md R72). -/
theorem toNat_setWidth_byte (b : Byte) : (b.setWidth 16).toNat = b.toNat := BitVec.toNat_setWidth_of_le (by decide)

/-- Five times a byte fits 16 bits (43_index_memory.md R142). -/
theorem toNat_glyphAddress (b : Byte) : (glyphAddress b).toNat = b.toNat * 5 := by
  have := b.isLt
  have five : (5 : Word).toNat = 5 := rfl
  rw [glyphAddress, BitVec.toNat_mul, toNat_setWidth_byte, five]
  omega

theorem toNat_indexPlus (s : State) (x : Reg) :
    (indexPlus s x).toNat = (s.i.toNat + (reg s x).toNat) % 65536 := by
  rw [indexPlus, BitVec.toNat_add, toNat_setWidth_byte]

/-! The range check (20_memory.md R57). -/

theorem withinMemory_of_le {first count : Nat} (fits : first + count ≤ 4096) (u : State) :
    withinMemory first count u = .next u :=
  withinMemory_next_iff.mpr ⟨(inMemory_iff _ _).mpr (.inr fits), rfl⟩

theorem withinMemory_of_lt {first count : Nat} (nonempty : 0 < count) (beyond : 4096 < first + count) (u : State) :
    withinMemory first count u = .fault .memRange := by
  rw [withinMemory, (inMemory_false_iff _ _).mpr ⟨nonempty, beyond⟩]
  rfl

/-! What each meaning answers. -/

section
variable (s : State)

theorem exec_ldI (nnn : Addr12) : exec (.ldI nnn) s = .next (setI (absolute nnn) s) := rfl

theorem exec_addI (x : Reg) : exec (.addI x) s = .next (setI (indexPlus s x) s) := rfl

theorem exec_ldF (x : Reg) : exec (.ldF x) s = .next (setI (glyphAddress (reg s x)) s) := rfl

end

variable {s : State} {x : Reg}

theorem exec_ldB_of_le (fits : s.i.toNat + 2 ≤ 4095) :
    exec (.ldB x) s = .next (writeBytes s.i.toNat (decimalDigits (reg s x)) s) :=
  withinMemory_of_le (first := s.i.toNat) (by omega) _

theorem exec_ldB_of_lt (beyond : 4095 < s.i.toNat + 2) : exec (.ldB x) s = .fault .memRange :=
  withinMemory_of_lt (first := s.i.toNat) (by omega) (by omega) _

theorem exec_stRegs_of_le (fits : s.i.toNat + x.toNat ≤ 4095) :
    exec (.stRegs x) s = .next (storeRegs s.i.toNat (blockLength x) s) :=
  withinMemory_of_le (first := s.i.toNat) (count := x.toNat + 1) (by omega) _

theorem exec_stRegs_of_lt (beyond : 4095 < s.i.toNat + x.toNat) : exec (.stRegs x) s = .fault .memRange :=
  withinMemory_of_lt (first := s.i.toNat) (count := x.toNat + 1) (by omega) (by omega) _

theorem exec_ldRegs_of_le (fits : s.i.toNat + x.toNat ≤ 4095) :
    exec (.ldRegs x) s = .next (loadRegs s.i.toNat (blockLength x) s) :=
  withinMemory_of_le (first := s.i.toNat) (count := x.toNat + 1) (by omega) _

theorem exec_ldRegs_of_lt (beyond : 4095 < s.i.toNat + x.toNat) : exec (.ldRegs x) s = .fault .memRange :=
  withinMemory_of_lt (first := s.i.toNat) (count := x.toNat + 1) (by omega) (by omega) _

/-! The bytes and registers moved. -/

/-- A block write puts its byte number `k` at `a + k`; a byte given as a number below 256 reads as that number. -/
theorem toNat_readByte_writeBytes (a : Nat) {bs : List Byte} {k n : Nat} (small : n < 256)
    (hk : bs[k]? = some (BitVec.ofNat 8 n)) : (readByte (writeBytes a bs s) (a + k)).toNat = n := by
  obtain ⟨inBlock, hb⟩ := List.getElem?_eq_some_iff.mp hk
  have stored : readByte (writeBytes a bs s) (a + k) = BitVec.ofNat 8 n := by
    simp [readByte_writeBytes, inBlock, hb]
  rw [stored, BitVec.toNat_ofNat, Nat.mod_eq_of_lt small]

theorem keepsMemoryOutside_writeBytes (a : Nat) (bs : List Byte) :
    KeepsMemoryOutside a bs.length s (writeBytes a bs s) := by
  intro q outside
  rw [readByte_writeBytes, dif_neg (by omega)]

theorem readByte_storeRegs_of_le (base : Nat) {k : Reg} (hk : k.toNat ≤ x.toNat) :
    readByte (storeRegs base (blockLength x) s) (base + k.toNat) = reg s k := by
  rw [readByte_storeRegs, if_pos (by rw [blockLength]; omega), Nat.add_sub_cancel_left, BitVec.ofNat_toNat]
  rfl

theorem keepsMemoryOutside_storeRegs (base count : Nat) :
    KeepsMemoryOutside base count s (storeRegs base count s) := by
  intro q outside
  rw [readByte_storeRegs, if_neg (by omega)]

theorem reg_loadRegs_of_le (base : Nat) {k : Reg} (hk : k.toNat ≤ x.toNat) :
    reg (loadRegs base (blockLength x) s) k = readByte s (base + k.toNat) := by
  rw [blockLength, reg_loadRegs x.isLt, if_pos (Nat.lt_succ_of_le hk)]

theorem reg_loadRegs_of_lt (base : Nat) {k : Reg} (hk : x.toNat < k.toNat) :
    reg (loadRegs base (blockLength x) s) k = reg s k := by
  rw [blockLength, reg_loadRegs x.isLt, if_neg (by omega)]

end Sys2Proof.Machine
end

section
/-! O19, O20, O22, O23, O24: the index and memory instructions (43_index_memory.md R140 to R145). -/

namespace Sys2Proof.Machine

/-- LD_REGS after ST_REGS of the same block gives the stored registers back (43_index_memory.md R145). -/
theorem exec_ldRegs_of_exec_stRegs {x : Reg} {s t u w : State} (fits : s.i.toNat + x.toNat ≤ 4095)
    (stored : exec (.stRegs x) s = .next t) (sameIndex : u.i = t.i) (sameMemory : ∀ a, readByte u a = readByte t a)
    (loaded : exec (.ldRegs x) u = .next w) {k : Reg} (hk : k.toNat ≤ x.toNat) : reg w k = reg s k := by
  have index : u.i = s.i := sameIndex.trans (exec_keepsAllBut_writtenParts stored .index (by simp [writtenParts]))
  cases (exec_stRegs_of_le fits).symm.trans stored
  cases (exec_ldRegs_of_le (by rwa [index])).symm.trans loaded
  rw [reg_loadRegs_of_le _ hk, sameMemory, index, readByte_storeRegs_of_le _ hk]

/-- Settles O24: the block within memory or beyond it, and a store followed by the load of the same block. -/
theorem registersAreLoaded : Obligations.RegistersAreLoaded := fun x =>
  ⟨decode_wordXF_familyF 0x65#8 x,
    fun _ => exec_ldRegs_of_lt,
    fun s fits => ⟨_, exec_ldRegs_of_le fits, fun _ => reg_loadRegs_of_le _, fun _ => reg_loadRegs_of_lt _,
      keepsAllBut_loadRegs _ _ s⟩,
    fun _ _ _ _ fits stored index memory loaded _ => exec_ldRegs_of_exec_stRegs fits stored index memory loaded⟩

/-- Settles O19: each is one write of `I`, of a number that fits 16 bits. -/
theorem loadsOfIndex : Obligations.LoadsOfIndex := fun x nnn =>
  ⟨decode_wordA_ldI nnn, decode_wordXF_familyF 0x29#8 x, fun s =>
    ⟨_, _, exec_ldI s nnn, exec_ldF s x, toNat_absolute nnn, toNat_glyphAddress _,
      keepsAllBut_setI _ s, keepsAllBut_setI _ s⟩⟩

/-- Settles O20: one write of `I`, of the sum, which below 65536 is not reduced. -/
theorem addToIndex : Obligations.AddToIndex := by
  refine fun x => ⟨decode_wordXF_familyF 0x1E#8 x, fun s =>
    ⟨_, exec_addI s x, keepsAllBut_setI _ s, fun noOverflow => ?_⟩⟩
  rw [setI_i, toNat_indexPlus, Nat.mod_eq_of_lt noOverflow]

/-- Settles O22: a block write of the three digits, each of which fits its byte, within memory or beyond it. -/
theorem decimalDigitsAreStored : Obligations.DecimalDigitsAreStored := by
  refine fun x => ⟨decode_wordXF_familyF 0x33#8 x, fun _ => exec_ldB_of_lt, fun s fits => ?_⟩
  have byte := (reg s x).isLt
  refine ⟨_, exec_ldB_of_le fits, ?_, ?_, ?_, keepsMemoryOutside_writeBytes _ (decimalDigits (reg s x)),
    keepsAllBut_writeBytes _ _ s⟩
  · exact toNat_readByte_writeBytes s.i.toNat (k := 0) (by omega) rfl
  · exact toNat_readByte_writeBytes s.i.toNat (k := 1) (by omega) rfl
  · exact toNat_readByte_writeBytes s.i.toNat (k := 2) (by omega) rfl

/-- Settles O23: the block within memory or beyond it. -/
theorem registersAreStored : Obligations.RegistersAreStored := fun x =>
  ⟨decode_wordXF_familyF 0x55#8 x,
    fun _ => exec_stRegs_of_lt,
    fun s fits => ⟨_, exec_stRegs_of_le fits, fun _ => readByte_storeRegs_of_le _,
      keepsMemoryOutside_storeRegs _ _, keepsAllBut_storeRegs _ _ s⟩⟩

end Sys2Proof.Machine
end

section
/-! SUPPORT. The display instructions: their words, the cells CLS and DRW leave, and where DRW completes
(44_display.md). -/

namespace Sys2Proof.Machine

theorem decode_wordXYN_drw (x y : Reg) (n : Nibble) :
    decode (wordXYN (0xD#4 ++ 0#8 ++ 0#4) x y n) = some (.drw x y n) := by
  rw [wordXYN_eq, decode]
  simp

theorem exec_cls (s : State) : exec .cls s = .next (setDisp clearDisplay s) := rfl

/-- `cell` reads the display only. -/
theorem cell_setDisp (d : Display) (s : State) (px : Fin Config.dispW) (py : Fin Config.dispH) :
    cell (setDisp d s) px py = cellOf d px py := rfl

variable {x y : Reg} {n : Nibble} {s t : State}

/-- DRW completes when it has no row, or its last one lies in memory (20_memory.md R57, 44_display.md R154). -/
theorem exec_drw_of_le (fits : n.toNat = 0 ∨ s.i.toNat + n.toNat - 1 ≤ 4095) : exec (.drw x y n) s =
    .next (setFlag (spriteDrawn x y n s).2 (setDisp (spriteDrawn x y n s).1 s)) :=
  withinMemory_next_iff.mpr ⟨(inMemory_iff s.i.toNat n.toNat).mpr (by omega), rfl⟩

theorem exec_drw_of_lt (nonempty : 0 < n.toNat) (beyond : 4095 < s.i.toNat + n.toNat - 1) :
    exec (.drw x y n) s = .fault .memRange :=
  withinMemory_of_lt (first := s.i.toNat) nonempty (by omega) _

/-- After DRW a cell is toggled where the sprite covers it, and as before elsewhere (44_display.md R151, R152). -/
theorem exec_drw_cell (h : exec (.drw x y n) s = .next t) (px : Fin Config.dispW) (py : Fin Config.dispH) :
    (SpriteCovers s x y n px py → cell t px py = !cell s px py) ∧
      (¬ SpriteCovers s x y n px py → cell t px py = cell s px py) := by
  rw [execDrw_next h]
  exact (spriteDrawn_toggled x y n s).1 px py

end Sys2Proof.Machine
end

section
/-! O26, O27: the display instructions (44_display.md R150 to R152). -/

namespace Sys2Proof.Machine

/-- Settles O27: the canvas the sprite leaves, then the collision written to `VF`, within memory or beyond it. -/
theorem drawTogglesTheSprite : Obligations.DrawTogglesTheSprite := by
  refine fun x y n => ⟨decode_wordXYN_drw x y n, fun _ => exec_drw_of_lt, fun s fits => ?_⟩
  have drawn := exec_drw_of_le (x := x) (y := y) fits
  exact ⟨_, drawn, fun px py => (exec_drw_cell drawn px py).1, fun px py => (exec_drw_cell drawn px py).2,
    fun hit => ((exec_drw_flag drawn).resolve_right fun miss => miss.2 hit).1,
    fun miss => ((exec_drw_flag drawn).resolve_left fun hit => miss hit.2).1,
    exec_keepsRegsBut_destinations drawn, exec_keepsAllBut_writtenParts drawn⟩

/-- Settles O26: one write of the display, by the clear one. -/
theorem clearTurnsEveryCellOff : Obligations.ClearTurnsEveryCellOff := by
  refine ⟨decode_wordA_family0 0x0E0#12, fun s => ⟨_, exec_cls s, fun px py => ?_, keepsAllBut_setDisp _ s⟩⟩
  rw [cell_setDisp, cellOf_clearDisplay]

end Sys2Proof.Machine
end

section
/-! SUPPORT. The key and timer instructions one by one: the words of family E, and what each meaning answers
(45_keys_timers.md); the words of family F are `decode_wordXF_familyF`, and SKP and SKNP on a key up to 15 are `exec_skp`
and `exec_sknp`. -/

namespace Sys2Proof.Machine

/-- The word `Exnn` decodes by its low byte. -/
theorem decode_wordXF_familyE (nn : Byte) (x : Reg) :
    decode (wordXF (0xE#4 ++ 0#4 ++ nn) x) = decodeFamilyE x nn := by
  rw [wordXF_eq, decode_familyE (fieldH_encodeXI _ _ _), fieldX_encodeXI, fieldNN_encodeXI]

/-! Keys. -/

variable {x : Reg} {s : State}

/-- A value above 15 selects no key, whichever level the skip wants (45_keys_timers.md R166). -/
theorem skipOnKey_of_gt (beyond : 15 < (reg s x).toNat) (want : Bool) : skipOnKey x want s = .fault .keyRange := by
  rw [skipOnKey, (selectedKey_eq_none_iff _).mpr beyond]

/-- The least pressed key is stored (45_keys_timers.md R163). -/
theorem exec_ldVxK_of_least {k : Fin Config.nKeys} (down : keyFlag s k = true)
    (least : ∀ j : Fin Config.nKeys, j.1 < k.1 → keyFlag s j = false) :
    exec (.ldVxK x) s = .next (setReg x (BitVec.ofNat 8 k.1) s) := by
  rw [exec, execLdVxK, firstPressed_eq_some s k down least]

/-- With no key pressed `pc` goes back to the instruction (45_keys_timers.md R163). -/
theorem exec_ldVxK_of_none (up : ∀ j, keyFlag s j = false) : exec (.ldVxK x) s = .next (setPc (s.pc - 2) s) := by
  rw [exec, execLdVxK, (firstPressed_eq_none_iff s).mpr up]
  rfl

/-- The number of a key fits a byte. -/
theorem toNat_ofNat_key (k : Fin Config.nKeys) : (BitVec.ofNat 8 k.1).toNat = k.1 := by
  have isKey : k.1 < 16 := k.2
  rw [BitVec.toNat_ofNat, Nat.mod_eq_of_lt (by omega)]

/-- Going back undoes the fetch's advance. -/
theorem setPc_sub_advancePc (s : State) : setPc ((advancePc s).pc - 2) (advancePc s) = s := by
  rw [setPc_advancePc, advancePc_pc, BitVec.add_sub_cancel, setPc_of_pc_eq rfl]

/-- A fetched wait with no key pressed is a fixed point of the step: the advance keeps the keys, and is undone. -/
theorem step_ldVxK_of_none {op : Word} (hf : fetch s = some op) (hd : decode op = some (.ldVxK x))
    (up : ∀ j, keyFlag s j = false) : step s = .next s := by
  have waits : exec (.ldVxK x) (advancePc s) = _ := exec_ldVxK_of_none up
  rw [step_of_decode_some hf hd, waits, setPc_sub_advancePc]

/-! Timers. -/

variable (s x)

theorem exec_ldVxDt : exec (.ldVxDt x) s = .next (setReg x s.dt s) := rfl

theorem exec_ldDtVx : exec (.ldDtVx x) s = .next (setDt (reg s x) s) := rfl

theorem exec_ldStVx : exec (.ldStVx x) s = .next (setSt (reg s x) s) := rfl

end Sys2Proof.Machine
end

section
/-! O29, O30, O31: the key and timer instructions (45_keys_timers.md R160 to R165). -/

namespace Sys2Proof.Machine

/-- Settles O29: a value above 15 selects no key; a key's flag and its negation are the two conditions. -/
theorem skipsOnKey : Obligations.SkipsOnKey := fun x =>
  ⟨decode_wordXF_familyE 0x9E#8 x, decode_wordXF_familyE 0xA1#8 x,
    fun _ beyond => ⟨skipOnKey_of_gt beyond true, skipOnKey_of_gt beyond false⟩,
    fun _ _ selects => exec_complementary_skips (exec_skp selects) (exec_sknp selects)⟩

/-- Settles O30: by what the scan of the keys finds; a fetched wait that finds none goes back to where it was. -/
theorem waitForKey : Obligations.WaitForKey := by
  refine fun x => ⟨decode_wordXF_familyF 0x0A#8 x, fun s k down least => ?_, fun s up => ?_, fun s hf => ?_⟩
  · refine ⟨_, exec_ldVxK_of_least down least, ?_, keepsRegsBut_setReg x _ s, keepsAllBut_setReg x _ s⟩
    rw [reg_setReg_self, toNat_ofNat_key]
  · exact ⟨_, exec_ldVxK_of_none up, rfl, keepsAllBut_setPc _ s⟩
  · exact step_ldVxK_of_none hf (decode_wordXF_familyF 0x0A#8 x)

/-- Settles O31: each is one write, of a register or of a timer. -/
theorem timerMoves : Obligations.TimerMoves := fun x =>
  ⟨decode_wordXF_familyF 0x07#8 x, decode_wordXF_familyF 0x15#8 x, decode_wordXF_familyF 0x18#8 x, fun s =>
    ⟨_, _, _, exec_ldVxDt x s, exec_ldDtVx x s, exec_ldStVx x s,
      reg_setReg_self s x _, keepsRegsBut_setReg x _ s, keepsAllBut_setReg x _ s,
      setDt_dt s _, keepsAllBut_setDt _ s, setSt_st s _, keepsAllBut_setSt _ s⟩⟩

end Sys2Proof.Machine
end

section
/-! SUPPORT. An instruction answers as its one check says, and the faults a step can end with (60_exceptions.md R171,
R172, R175). -/

namespace Sys2Proof.Machine

/-- An answer is the fault of the failed check, and completes when no check fails. -/
def FollowsCheck (check : Option Fault) (answer : Answer) : Prop :=
  match check with
  | some f => answer = .fault f
  | none => ∃ t, answer = .next t

/-- An answer follows a check of one condition by faulting where it holds and completing where it does not. -/
theorem followsCheck_ite {c : Prop} [Decidable c] {f : Fault} {answer : Answer} (fails : c → answer = .fault f)
    (passes : ¬ c → ∃ t, answer = .next t) : FollowsCheck (if c then some f else none) answer := by
  by_cases h : c
  · rw [if_pos h]; exact fails h
  · rw [if_neg h]; exact passes h

variable {s : State} {i : Instr} {f : Fault}

/-- A skip on a key checks the key's number (45_keys_timers.md R166). -/
theorem skipOnKey_followsCheck (x : Reg) (want : Bool) :
    FollowsCheck (if 15 < (reg s x).toNat then some .keyRange else none) (skipOnKey x want s) := by
  refine followsCheck_ite (fun beyond => skipOnKey_of_gt beyond want) fun inRange => ?_
  obtain ⟨k, hk⟩ := exists_key_of_le (Nat.le_of_not_lt inRange)
  exact ⟨_, skipOnKey_of_selects hk want⟩

/-- The eight instructions with a check follow it, CALL's never failing at the default, unbounded capacity, and the other
27 complete in every state (60_exceptions.md R175). -/
theorem exec_followsCheck (i : Instr) (s : State) : FollowsCheck (failedCheck i s) (exec i s) := by
  cases i with
  | ret =>
    refine followsCheck_ite exec_ret_of_nil fun nonempty => ?_
    obtain ⟨top, rest, h⟩ := List.exists_cons_of_ne_nil nonempty
    exact ⟨_, exec_ret_of_cons h⟩
  | call nnn => exact ⟨_, exec_call s nnn⟩
  | drw x y n =>
    exact followsCheck_ite (fun ⟨nonempty, beyond⟩ => exec_drw_of_lt nonempty beyond)
      fun fits => ⟨_, exec_drw_of_le (by omega)⟩
  | ldB x => exact followsCheck_ite exec_ldB_of_lt fun fits => ⟨_, exec_ldB_of_le (by omega)⟩
  | stRegs x => exact followsCheck_ite exec_stRegs_of_lt fun fits => ⟨_, exec_stRegs_of_le (by omega)⟩
  | ldRegs x => exact followsCheck_ite exec_ldRegs_of_lt fun fits => ⟨_, exec_ldRegs_of_le (by omega)⟩
  | skp x => exact skipOnKey_followsCheck x true
  | sknp x => exact skipOnKey_followsCheck x false
  | ldVxK x =>
    rw [exec, execLdVxK]
    cases firstPressed s <;> exact ⟨_, rfl⟩
  | _ => exact ⟨_, rfl⟩

theorem exec_of_failedCheck (h : failedCheck i s = some f) : exec i s = .fault f := by
  simpa [FollowsCheck, h] using exec_followsCheck i s

theorem exec_completes_of_failedCheck_none (h : failedCheck i s = none) : ∃ t, exec i s = .next t := by
  simpa [FollowsCheck, h] using exec_followsCheck i s

theorem failedCheck_of_exec_fault (h : exec i s = .fault f) : failedCheck i s = some f := by
  cases hc : failedCheck i s with
  | none =>
    obtain ⟨t, ht⟩ := exec_completes_of_failedCheck_none hc
    cases h.symm.trans ht
  | some g =>
    cases h.symm.trans (exec_of_failedCheck hc)
    rfl

/-- The one fatal check is that of RET; the others end in undefined behaviour (60_exceptions.md R172, R174). -/
theorem failedCheck_fatal (h : failedCheck i s = some f) (fatal : diagnostic f ≠ none) :
    i = .ret ∧ s.stack = [] ∧ f = .stackUnderflow 0x00EE#16 (s.pc - 2) := by
  cases i with
  | ret =>
    obtain ⟨empty, hf⟩ := Option.ite_none_right_eq_some.mp h
    exact ⟨rfl, empty, (Option.some.inj hf).symm⟩
  | drw | ldB | stRegs | ldRegs | skp | sknp =>
    obtain ⟨-, hf⟩ := Option.ite_none_right_eq_some.mp h
    cases hf
    exact absurd rfl fatal
  | _ => cases h

/-- A word that decodes matches a row with its instruction's name (30_encoding.md R75). -/
theorem exists_row_of_decode {op : Word} (h : decode op = some i) :
    ∃ r ∈ opcodeRows, rowMatches op r = true ∧ r.id = i.mnemonic := by
  have ids := rowsSelectTheInstruction.2 op
  have selected : i.mnemonic ∈ (opcodeRows.filter (rowMatches op)).map OpcodeRow.id := by simp [ids, h]
  obtain ⟨r, hr, hid⟩ := List.mem_map.mp selected
  obtain ⟨hrow, hm⟩ := List.mem_filter.mp hr
  exact ⟨r, hrow, hm, hid⟩

/-- RET has one word: its row fixes every bit. -/
theorem decode_eq_ret_iff {op : Word} : decode op = some .ret ↔ op = 0x00EE#16 := by
  refine ⟨fun h => ?_, by rintro rfl; rfl⟩
  obtain ⟨r, hr, hm, hid⟩ := exists_row_of_decode h
  have retRow : ∀ r ∈ opcodeRows, r.id = "RET" → r.mask = BitVec.allOnes 16 ∧ r.pattern = 0x00EE#16 := by decide
  obtain ⟨mask, pattern⟩ := retRow r hr hid
  rwa [rowMatches, beq_iff_eq, mask, pattern, BitVec.and_allOnes] at hm

/-- A step faults in its fetch, in its decoding, or in the check of the instruction, in this order
(60_exceptions.md R175). -/
theorem step_fault_cases (h : step s = .fault f) :
    (fetch s = none ∧ f = .memRange) ∨
    (∃ op, fetch s = some op ∧ decode op = none ∧ f = .unimplementedOpcode op s.pc) ∨
    ∃ op i, fetch s = some op ∧ decode op = some i ∧ failedCheck i (advancePc s) = some f := by
  cases hf : fetch s with
  | none =>
    cases h.symm.trans (step_of_fetch_none hf)
    exact .inl ⟨rfl, rfl⟩
  | some op =>
    cases hd : decode op with
    | none =>
      cases h.symm.trans (step_of_decode_none hf hd)
      exact .inr (.inl ⟨op, rfl, hd, rfl⟩)
    | some i =>
      exact .inr (.inr ⟨op, i, rfl, hd, failedCheck_of_exec_fault ((step_of_decode_some hf hd).symm.trans h)⟩)

/-- A fatal step fetched an illegal word, or RET on an empty stack (60_exceptions.md R171, R172). -/
theorem step_fatal_cases (h : step s = .fault f) (fatal : diagnostic f ≠ none) :
    (∃ op, fetch s = some op ∧ WellFormed.legalWord op = false ∧ f = .unimplementedOpcode op s.pc) ∨
    (fetch s = some 0x00EE#16 ∧ s.stack = [] ∧ f = .stackUnderflow 0x00EE#16 s.pc) := by
  obtain ⟨-, rfl⟩ | ⟨op, hf, hd, rfl⟩ | ⟨op, i, hf, hd, hc⟩ := step_fault_cases h
  · exact absurd rfl fatal
  · exact .inl ⟨op, hf, (decode_eq_none_iff_illegal op).mp hd, rfl⟩
  · obtain ⟨rfl, empty, rfl⟩ := failedCheck_fatal hc fatal
    cases decode_eq_ret_iff.mp hd
    exact .inr ⟨hf, empty, by rw [advancePc_pc, BitVec.add_sub_cancel]⟩

/-- The host sees a fatal step with its diagnostic, and the state left is the old one but for `pc`
(60_exceptions.md R173, R176). -/
theorem call_step_of_fatal {code : Nat} {op a : Word} (h : step s = .fault f)
    (fatal : diagnostic f = some (code, op, a)) :
    ∃ t, Session.call .step (.running s) = .next (.over t, .fatal code op a) ∧ t.pc = s.pc + 2 ∧
      KeepsAllBut [.pc] s t := by
  have seen : Session.call .step (.running s) = stepSeen s (step s) := rfl
  exact ⟨leftByFatal s, by rw [seen, h, stepSeen_fault fatal], advancePc_pc s, keepsAllBut_advancePc s⟩

end Sys2Proof.Machine
end

section
/-! SUPPORT. The timers counted down, one key flag set, and the cells of the display in a row
(60_exceptions.md R181, R185, R186). -/

namespace Sys2Proof.Machine

theorem toNat_countDown (b : Byte) : (countDown b).toNat = b.toNat - 1 := by
  by_cases zero : b = 0
  · rw [countDown, if_pos zero, zero]
    rfl
  · rw [countDown, if_neg zero]
    bv_omega

theorem setPressed_of_fin (k : Fin Config.nKeys) (b : Bool) (s : State) :
    setPressed k.1 b s = .next (setKey (s.key.set k.1 b k.2) s) := dif_pos k.2

theorem keyFlag_setKey_set (k j : Fin Config.nKeys) (b : Bool) (s : State) :
    keyFlag (setKey (s.key.set k.1 b k.2) s) j = if j = k then b else keyFlag s j := by
  simp [keyFlag, Vector.getElem_set, Fin.ext_iff, eq_comm]

theorem length_snapshot (s : State) : (snapshot s).length = 2048 := by
  simp [snapshot, List.length_flatMap, Config.dispH, Config.dispW]

/-- Rows of one width `w`, one after another: element `y * w + x` is element `x` of row `y`. -/
theorem getElem?_flatMap_toList {α : Type} {w x : Nat} (hx : x < w) (rows : List (Vector α w)) (y : Nat) :
    (rows.flatMap Vector.toList)[y * w + x]? = rows[y]?.bind fun row => row[x]? := by
  induction rows generalizing y with
  | nil => simp
  | cons row rows ih =>
    cases y with
    | zero => simp [List.getElem?_append_left, hx]
    | succ y =>
      have later : (y + 1) * w + x = w + (y * w + x) := by ring
      simp [List.getElem?_append_right, later, ih]

theorem getElem?_snapshot (s : State) (px : Fin Config.dispW) (py : Fin Config.dispH) :
    (snapshot s)[py.1 * Config.dispW + px.1]? = some (cell s px py) := by
  rw [snapshot, getElem?_flatMap_toList px.2]
  simp [cell, cellOf]

end Sys2Proof.Machine
end

section
/-! O34, O36, O38, O40, O41: the fatal conditions, the checks, and the host's tick, key port and snapshot
(60_exceptions.md R171 to R186). -/

namespace Sys2Proof.Machine

/-- Settles O34: the two ways a step is fatal are told apart by the fault; the host sees each by its diagnostic. -/
theorem fatalConditionsArePrecise : Obligations.FatalConditionsArePrecise := by
  have illegalStep := illegalWordsAreTheTable.2
  refine ⟨fun s op a => ⟨fun h => ?_, ?_⟩, fun s op a => ⟨fun h => ?_, ?_⟩,
    fun s op hf illegal => call_step_of_fatal (illegalStep s op hf illegal) rfl,
    fun s hf empty => call_step_of_fatal (step_ret_of_nil hf empty) rfl⟩
  · obtain ⟨op, hf, illegal, e⟩ | ⟨-, -, e⟩ := step_fatal_cases h (by simp [diagnostic])
    · cases e
      exact ⟨hf, illegal, rfl⟩
    · cases e
  · rintro ⟨hf, illegal, rfl⟩
    exact illegalStep s op hf illegal
  · obtain ⟨op, -, -, e⟩ | ⟨hf, empty, e⟩ := step_fatal_cases h (by simp [diagnostic])
    · cases e
    · cases e
      exact ⟨hf, empty, rfl, rfl⟩
  · rintro ⟨hf, empty, rfl, rfl⟩
    exact step_ret_of_nil hf empty

/-- Settles O36: by what the fetch finds, what that decodes to, and the instruction's own check. -/
theorem checksAndTheirOrder : Obligations.ChecksAndTheirOrder :=
  ⟨fun _ => step_of_fetch_none,
    fun _ _ => step_of_decode_none,
    fun _ _ _ _ hf hd fails => (step_of_decode_some hf hd).trans (exec_of_failedCheck fails),
    fun _ _ _ => exec_of_failedCheck,
    fun _ _ => exec_completes_of_failedCheck_none⟩

/-- Settles O38: each timer is counted down by itself, and the tick writes nothing else. -/
theorem tickCountsDown : Obligations.TickCountsDown := fun s =>
  ⟨(tickTimers s).1, (tickTimers s).2, rfl, toNat_countDown s.dt, toNat_countDown s.st, rfl, keepsAllBut_tickTimers s⟩

/-- Settles O40: the call writes one entry of the key flags. -/
theorem keyPortSetsOneFlag : Obligations.KeyPortSetsOneFlag := by
  intro k b s
  have answered := setPressed_of_fin k b s
  refine ⟨_, answered, ?_, fun j other => ?_, keepsAllBut_setKey _ s, congrArg runsOn answered⟩
  · rw [keyFlag_setKey_set, if_pos rfl]
  · rw [keyFlag_setKey_set, if_neg other]

/-- Settles O41: the snapshot is the 32 rows of 64 cells one after another. -/
theorem snapshotIsRowMajor : Obligations.SnapshotIsRowMajor := fun s =>
  ⟨rfl, length_snapshot s, getElem?_snapshot s⟩

end Sys2Proof.Machine
end

section
/-! SUPPORT. A program within its contract, and what the reset state reads as (70_reset_and_hazards.md R191, R192, R194). -/

namespace Sys2Proof.Machine

theorem loadProgram_of_le {bytes : List Byte} (fits : bytes.length ≤ 3584) (s : State) :
    loadProgram bytes s = .next (writeBytes 512 bytes s) :=
  have inMem : 512 + bytes.length ≤ 4096 := by omega
  if_pos (decide_eq_true inMem)

/-- A block write puts its byte number `k` at `a + k` (20_memory.md R66). -/
theorem readByte_writeBytes_add (a : Nat) {bs : List Byte} {k : Nat} (h : k < bs.length) (s : State) :
    readByte (writeBytes a bs s) (a + k) = bs[k] := by
  simp [readByte_writeBytes, h]

@[simp] theorem reg_reset (r : Reg) : reg State.reset r = 0 := by simp [reg, State.reset]

@[simp] theorem cell_reset (px : Fin Config.dispW) (py : Fin Config.dispH) : cell State.reset px py = false :=
  cellOf_clearDisplay px py

@[simp] theorem readByte_reset (a : Nat) : readByte State.reset a = initialByte a := Memory.read_nil a

theorem length_fontTable : fontTable.length = 80 := rfl

theorem some_initialByte_of_lt {a : Nat} (inFont : a < 80) : some (initialByte a) = fontTable[a]? := by
  have listed : a < fontTable.length := by rw [length_fontTable]; exact inFont
  rw [initialByte, List.getD_eq_getElem _ _ listed, List.getElem?_eq_getElem listed]

/-- Two resets differ in the count of random draws only: the random source is outside the machine (10_state.md R32). -/
theorem hostReset_eq_setDraws (s t : State) : hostReset t = setDraws t.draws (hostReset s) := rfl

end Sys2Proof.Machine
end

section
/-! O42, O44: the program copied to 512, and the reset state (70_reset_and_hazards.md R192, R194). -/

namespace Sys2Proof.Machine

/-- Settles O42: a program that fits is one block write from 512 on. -/
theorem programIsCopiedTo512 : Obligations.ProgramIsCopiedTo512 := fun bytes s fits =>
  ⟨writeBytes 512 bytes s, congrArg runsOn (loadProgram_of_le fits s),
    fun _ inBlock => readByte_writeBytes_add 512 inBlock s,
    keepsMemoryOutside_writeBytes 512 bytes, keepsAllBut_writeBytes 512 bytes s⟩

/-- Settles O44: a reset is the one reset state with the draws counted so far, and that state is read part by part. -/
theorem resetIsTotalAndIdempotent : Obligations.ResetIsTotalAndIdempotent := by
  refine ⟨fun s t => ?_, fun s => hostReset_eq_setDraws s (hostReset s),
    fun s => ⟨keepsAllBut_setDraws s.draws State.reset, rfl⟩,
    reg_reset, rfl, reset_stack, reset_dt, reset_st, cell_reset, fun a inFont => ?_⟩
  · rw [hostReset_eq_setDraws s t]
    exact keepsAllBut_setDraws t.draws (hostReset s)
  · rw [readByte_reset]
    exact some_initialByte_of_lt inFont

end Sys2Proof.Machine
end

section
/-! SUPPORT. What a completing instruction has done to the memory, to `pc` and to the stack, over all 35
(40_control.md, 41_skip.md, 43_index_memory.md section 1). -/

namespace Sys2Proof.Machine

variable {i : Instr} {s t : State}

/-- Only LD_B and ST_REGS touch the memory, and they have found their range inside it (43_index_memory.md section 1). -/
theorem exec_mem_cases (h : exec i s = .next t) :
    (t.mem = s.mem ∧ storedBytes i s = []) ∨
    (∃ x, i = .ldB x ∧ s.i.toNat + 2 ≤ 4095 ∧ t = writeBytes s.i.toNat (decimalDigits (reg s x)) s) ∨
    (∃ x, i = .stRegs x ∧ s.i.toNat + x.toNat ≤ 4095 ∧ t = storeRegs s.i.toNat (blockLength x) s) := by
  cases i with
  | ldB x =>
    have fits : s.i.toNat + 2 ≤ 4095 := by
      by_contra beyond
      cases h.symm.trans (exec_ldB_of_lt (Nat.lt_of_not_le beyond))
    cases h.symm.trans (exec_ldB_of_le fits)
    exact .inr (.inl ⟨x, rfl, fits, rfl⟩)
  | stRegs x =>
    have fits : s.i.toNat + x.toNat ≤ 4095 := by
      by_contra beyond
      cases h.symm.trans (exec_stRegs_of_lt (Nat.lt_of_not_le beyond))
    cases h.symm.trans (exec_stRegs_of_le fits)
    exact .inr (.inr ⟨x, rfl, fits, rfl⟩)
  | ret =>
    obtain ⟨top, rest, -, rfl⟩ := execRet_next h
    exact .inl ⟨rfl, rfl⟩
  | seImm | sneImm | seReg | sneReg => cases h; exact .inl ⟨by rw [skipIf_eq]; rfl, rfl⟩
  | skp | sknp =>
    obtain ⟨k, -, rfl⟩ := skipOnKey_next h
    exact .inl ⟨by rw [skipIf_eq]; rfl, rfl⟩
  | ldVxK x => obtain ⟨k, -, rfl⟩ | ⟨-, rfl⟩ := execLdVxK_next h <;> exact .inl ⟨rfl, rfl⟩
  | drw => rw [execDrw_next h]; exact .inl ⟨rfl, rfl⟩
  | ldRegs =>
    obtain ⟨-, rfl⟩ := withinMemory_next_iff.mp h
    exact .inl ⟨mem_loadRegs _ _ s, rfl⟩
  | _ => cases h; exact .inl ⟨rfl, rfl⟩

/-- A skip on a key that completes has selected one, so its condition is defined (45_keys_timers.md R166). -/
theorem le_of_skipOnKey_next {x : Reg} {want : Bool} (h : skipOnKey x want s = .next t) : (reg s x).toNat ≤ 15 := by
  by_contra beyond
  cases h.symm.trans (skipOnKey_of_gt (Nat.lt_of_not_le beyond) want)

/-- A skip leaves `pc` where its condition fails and adds 2 where it holds (41_skip.md R114). -/
theorem pc_of_skipCondition {c : Prop} (hc : skipCondition i s = some c) (h : exec i s = .next t) :
    t.pc = s.pc ∨ c ∧ t.pc = s.pc + 2 := by
  obtain ⟨taken, holds, hx⟩ := exec_of_skipCondition hc
  cases h.symm.trans hx
  cases taken with
  | false => exact .inl rfl
  | true => exact .inr ⟨holds.mp rfl, rfl⟩

/-- Where `pc` is after an instruction, beyond the fetch's advance: as before, at the target of a jump or a CALL, at the
popped return address, past one word, or back at a wait for a key. -/
theorem exec_pc_cases (h : exec i s = .next t) :
    t.pc = s.pc ∨ (∃ nnn, (i = .jp nnn ∨ i = .call nnn) ∧ t.pc = absolute nnn) ∨
    (∃ nnn, i = .jpV0 nnn ∧ t.pc = indexedTarget s nnn) ∨ (i = .ret ∧ t.pc ∈ s.stack) ∨
    (∃ c, skipCondition i s = some c ∧ c ∧ t.pc = s.pc + 2) ∨
    (∃ x, i = .ldVxK x ∧ firstPressed s = none ∧ t.pc = s.pc - 2) := by
  have skip : ∀ {c}, skipCondition i s = some c →
      t.pc = s.pc ∨ ∃ c, skipCondition i s = some c ∧ c ∧ t.pc = s.pc + 2 :=
    fun hc => (pc_of_skipCondition hc h).imp id fun ⟨holds, hpc⟩ => ⟨_, hc, holds, hpc⟩
  cases i with
  | jp nnn => cases h; exact .inr (.inl ⟨nnn, .inl rfl, rfl⟩)
  | call nnn => cases h; exact .inr (.inl ⟨nnn, .inr rfl, rfl⟩)
  | jpV0 nnn => cases h; exact .inr (.inr (.inl ⟨nnn, rfl, rfl⟩))
  | ret =>
    obtain ⟨top, rest, hs, rfl⟩ := execRet_next h
    exact .inr (.inr (.inr (.inl ⟨rfl, by simp [hs]⟩)))
  | seImm | sneImm | seReg | sneReg => exact (skip rfl).imp id fun taken => .inr (.inr (.inr (.inl taken)))
  | skp | sknp =>
    exact (skip (if_pos (le_of_skipOnKey_next h))).imp id fun taken => .inr (.inr (.inr (.inl taken)))
  | ldVxK x =>
    obtain ⟨k, -, rfl⟩ | ⟨up, rfl⟩ := execLdVxK_next h
    · exact .inl rfl
    · exact .inr (.inr (.inr (.inr (.inr ⟨x, rfl, up, rfl⟩))))
  | _ => exact .inl (exec_keepsAllBut_writtenParts h .pc (by simp [writtenParts]))

/-- The stack after an instruction: as before, with the return address pushed by CALL, or popped by RET
(40_control.md R101, R103). -/
theorem exec_stack_cases (h : exec i s = .next t) :
    t.stack = s.stack ∨ (∃ nnn, i = .call nnn ∧ t.stack = s.pc :: s.stack) ∨
    (i = .ret ∧ ∃ top, s.stack = top :: t.stack) := by
  cases i with
  | call nnn => cases h; exact .inr (.inl ⟨nnn, rfl, rfl⟩)
  | ret =>
    obtain ⟨top, rest, hs, rfl⟩ := execRet_next h
    exact .inr (.inr ⟨rfl, top, hs⟩)
  | _ => exact .inl (exec_keepsAllBut_writtenParts h .stack (by simp [writtenParts]))

end Sys2Proof.Machine
end

section
/-! SUPPORT. The invariant (10_state.md section 7): what an instruction and a fetch need of it and keep of it. -/

namespace Sys2Proof.Machine

variable {i : Instr} {s t : State}

/-- The invariant reads the memory, `pc` and the stack only. -/
theorem Invariant.congr (h : Invariant s) (mem : t.mem = s.mem) (pc : t.pc = s.pc) (stack : t.stack = s.stack) :
    Invariant t := by
  rwa [Invariant, mem, pc, stack]

/-- Every completing instruction keeps the memory's canonical form. -/
theorem exec_mem_wf (h : exec i s = .next t) (wf : s.mem.wf) : t.mem.wf := by
  obtain ⟨same, -⟩ | ⟨x, -, fits, rfl⟩ | ⟨x, -, fits, rfl⟩ := exec_mem_cases h
  · rwa [same]
  · have inside : s.i.toNat + (decimalDigits (reg s x)).length ≤ 4096 := Nat.succ_le_succ fits
    exact writeBytes_wf _ _ s wf inside
  · have inside : s.i.toNat + blockLength x ≤ 4096 := Nat.succ_le_succ fits
    exact storeRegs_wf wf inside

/-- From a `pc` the fetch has advanced, 2 to 4096, no instruction takes `pc` above 0x10FE, the highest target of
JP_V0. -/
theorem exec_pc_le (h : exec i s = .next t) (low : 2 ≤ s.pc.toNat) (high : s.pc.toNat ≤ 4096)
    (stack : ∀ a ∈ s.stack, 2 ≤ a.toNat ∧ a.toNat ≤ 4096) : t.pc.toNat ≤ 0x10FE := by
  obtain hpc | ⟨nnn, -, hpc⟩ | ⟨nnn, -, hpc⟩ | ⟨-, popped⟩ | ⟨c, -, -, hpc⟩ | ⟨x, -, -, hpc⟩ := exec_pc_cases h
  · rw [hpc]; omega
  · rw [hpc, toNat_absolute]; omega
  · rw [hpc, toNat_indexedTarget]; have := (reg s 0).isLt; omega
  · have := (stack _ popped).2; omega
  · rw [hpc]; bv_omega
  · rw [hpc]; bv_omega

/-- Every return address on the stack is one the fetch has advanced `pc` to, 2 to 4096. -/
theorem exec_stack_range (h : exec i s = .next t) (low : 2 ≤ s.pc.toNat) (high : s.pc.toNat ≤ 4096)
    (stack : ∀ a ∈ s.stack, 2 ≤ a.toNat ∧ a.toNat ≤ 4096) : ∀ a ∈ t.stack, 2 ≤ a.toNat ∧ a.toNat ≤ 4096 := by
  obtain same | ⟨nnn, -, pushed⟩ | ⟨-, top, popped⟩ := exec_stack_cases h
  · rwa [same]
  · rw [pushed]
    exact List.forall_mem_cons.mpr ⟨⟨low, high⟩, stack⟩
  · rw [popped] at stack
    exact (List.forall_mem_cons.mp stack).2

/-- What is fetched lies in memory (20_memory.md R57). -/
theorem pc_le_of_fetch {op : Word} (h : fetch s = some op) : s.pc.toNat ≤ 4094 := by
  by_contra beyond
  cases h.symm.trans (readWord_of_lt (s := s) (a := s.pc.toNat) (by omega))

/-- From where a word is fetched the advance does not wrap. -/
theorem toNat_advancePc_pc (h : s.pc.toNat ≤ 4094) : (advancePc s).pc.toNat = s.pc.toNat + 2 := by
  rw [advancePc_pc]; bv_omega

end Sys2Proof.Machine
end

section
/-! O47, O48, O49: the invariant at reset, over a step, and over every host operation (10_state.md section 7). -/

namespace Sys2Proof.Machine

variable {s t : State}

/-- Settles O47: a step executes on a `pc` from 2 to 4096, from where each part of the invariant is kept. -/
theorem stepKeepsInvariant : Obligations.StepKeepsInvariant := by
  rintro s t ⟨wf, -, stack⟩ h
  obtain ⟨op, i, hf, -, hx⟩ := step_next h
  have fetched := pc_le_of_fetch hf
  have advanced := toNat_advancePc_pc fetched
  exact ⟨exec_mem_wf hx wf, exec_pc_le hx (by omega) (by omega) stack, exec_stack_range hx (by omega) (by omega) stack⟩

/-- Settles O48: at reset no byte and no return address is listed. -/
theorem resetMeetsInvariant : Obligations.ResetMeetsInvariant :=
  ⟨Memory.wf_nil, by decide, by simp⟩

/-- A fatal step has fetched a word, so the `pc` it leaves is at most 4096 (60_exceptions.md R171, R172, R176). -/
theorem leftByFatal_invariant {f : Fault} (inv : Invariant s) (h : step s = .fault f) (fatal : diagnostic f ≠ none) :
    Invariant (leftByFatal s) := by
  obtain ⟨wf, -, stack⟩ := inv
  have fetched : s.pc.toNat ≤ 4094 := by
    obtain ⟨op, hf, -, -⟩ | ⟨hf, -, -⟩ := step_fatal_cases h fatal
    · exact pc_le_of_fetch hf
    · exact pc_le_of_fetch hf
  have advanced : (leftByFatal s).pc.toNat = s.pc.toNat + 2 := toNat_advancePc_pc fetched
  exact ⟨wf, by omega, stack⟩

/-- A program that is loaded fits the memory (70_reset_and_hazards.md R194). -/
theorem loadProgram_next_fits {bytes : List Byte} (h : loadProgram bytes s = .next t) :
    Config.progStart + bytes.length ≤ Config.memSize := by
  unfold loadProgram writeBlock at h
  split at h
  · next fits => exact of_decide_eq_true fits
  · cases h

theorem loadProgram_invariant {bytes : List Byte} (inv : Invariant s) (h : loadProgram bytes s = .next t) :
    Invariant t := by
  obtain ⟨wf, pc, stack⟩ := inv
  have wf' := writeBytes_wf bytes Config.progStart s wf (loadProgram_next_fits h)
  rw [loadProgram_next h]
  refine ⟨wf', ?_⟩
  rw [writeBytes_eq_setMem]
  exact ⟨pc, stack⟩

/-- Settles O49: a load is a block write inside memory, a step keeps the invariant or is fatal, and the other operations
do not touch what it speaks of, or reset it. -/
theorem hostCallsKeepInvariant : Obligations.HostCallsKeepInvariant := by
  intro c s w r inv h
  cases c with
  | reset => cases h; exact ⟨_, .inl rfl, resetMeetsInvariant.congr rfl rfl rfl⟩
  | setByteOrder mode => cases h; exact ⟨_, .inl rfl, inv.congr rfl rfl rfl⟩
  | loadProgram bytes =>
    obtain ⟨t, hload, rfl, -⟩ := runsOn_next h
    exact ⟨t, .inl rfl, loadProgram_invariant inv hload⟩
  | step =>
    obtain ⟨t, hstep, rfl, -⟩ | ⟨f, code, op, a, hstep, fatal, rfl, -⟩ := stepSeen_cases h
    · exact ⟨t, .inl rfl, stepKeepsInvariant s t inv hstep⟩
    · exact ⟨_, .inr rfl, leftByFatal_invariant inv hstep (by simp [fatal])⟩
  | tickTimers => cases h; exact ⟨_, .inl rfl, inv.congr rfl rfl rfl⟩
  | setPressed k b =>
    obtain ⟨t, hset, rfl, -⟩ := runsOn_next h
    obtain ⟨inContract, rfl⟩ := setPressed_next hset
    exact ⟨_, .inl rfl, inv.congr rfl rfl rfl⟩
  | snapshot => cases h; exact ⟨s, .inl rfl, inv⟩

end Sys2Proof.Machine
end

section
/-! SUPPORT. The decoder on the encoder's four formats, and the encoder on what a family's part of the decoder finds
(30_encoding.md R73 to R75). -/

namespace Sys2Proof

theorem decode_encodeXYN_family8 (x y : Reg) (n : Nibble) : decode (encodeXYN 0x8#4 x y n) = decodeFamily8 x y n := by
  rw [decode_family8 (fieldH_encodeXYN _ _ _ _), fieldX_encodeXYN, fieldY_encodeXYN, fieldN_encodeXYN]

theorem decode_encodeXI_familyE (x : Reg) (nn : Byte) : decode (encodeXI 0xE#4 x nn) = decodeFamilyE x nn := by
  rw [decode_familyE (fieldH_encodeXI _ _ _), fieldX_encodeXI, fieldNN_encodeXI]

theorem decode_encodeXI_familyF (x : Reg) (nn : Byte) : decode (encodeXI 0xF#4 x nn) = decodeFamilyF x nn := by
  rw [decode_familyF (fieldH_encodeXI _ _ _), fieldX_encodeXI, fieldNN_encodeXI]

variable {i : Instr}

theorem encode_of_decodeFamily0 {nnn : Addr12} (h : decodeFamily0 nnn = some i) : encode i = encodeA 0x0#4 nnn := by
  unfold decodeFamily0 at h
  split at h <;> cases h <;> rfl

theorem encode_of_decodeFamily8 {x y : Reg} {n : Nibble} (h : decodeFamily8 x y n = some i) :
    encode i = encodeXYN 0x8#4 x y n := by
  unfold decodeFamily8 at h
  split at h <;> cases h <;> rfl

theorem encode_of_decodeFamilyE {x : Reg} {nn : Byte} (h : decodeFamilyE x nn = some i) :
    encode i = encodeXI 0xE#4 x nn := by
  unfold decodeFamilyE at h
  split at h <;> cases h <;> rfl

theorem encode_of_decodeFamilyF {x : Reg} {nn : Byte} (h : decodeFamilyF x nn = some i) :
    encode i = encodeXI 0xF#4 x nn := by
  unfold decodeFamilyF at h
  split at h <;> cases h <;> rfl

variable {op : Word}

/-- A word of a full family is the encoding of its one instruction, on the fields of the family's format. -/
theorem encode_of_decode_fullFamily (full : fieldH op ∈ fullFamilies) (h : decode op = some i) : encode i = op := by
  have asA := encodeA_fields op
  have asXI := encodeXI_fields op
  have asXYN := encodeXYN_fields op
  simp only [fullFamilies, List.mem_cons, List.not_mem_nil, or_false] at full
  rcases full with hf | hf | hf | hf | hf | hf | hf | hf | hf | hf
  all_goals
    rw [hf] at asA asXI asXYN
    simp only [decode, hf] at h
    cases h
  · exact asA
  · exact asA
  · exact asXI
  · exact asXI
  · exact asXI
  · exact asXI
  · exact asA
  · exact asA
  · exact asXI
  · exact asXYN

end Sys2Proof
end

section
/-! O50, O51, O33: encoding and decoding undo each other (30_encoding.md section 5). -/

namespace Sys2Proof

/-- Settles O50: instruction by instruction, the decoder reads back the fields of the format. -/
theorem decodeOfEncode : Obligations.DecodeOfEncode := by
  intro i
  cases i with
  | nop | cls | ret => rfl
  | jp | call | seImm | sneImm | seReg | ldImm | addImm | sneReg | ldI | jpV0 | rnd | drw => simp [encode, decode]
  | ldReg x y | orReg x y | andReg x y | xorReg x y | addReg x y | subReg x y | shr x y | subnReg x y | shl x y =>
    exact decode_encodeXYN_family8 x y _
  | skp x | sknp x => exact decode_encodeXI_familyE x _
  | ldVxDt x | ldVxK x | ldDtVx x | ldStVx x | addI x | ldF x | ldB x | stRegs x | ldRegs x =>
    exact decode_encodeXI_familyF x _

/-- Settles O51: family by family, the fields that were decoded are all the bits of the word. -/
theorem encodeOfDecode : Obligations.EncodeOfDecode := by
  intro op i h
  rcases family_cases (fieldH op) with full | hf | hf | hf | hf | hf | hf
  · exact encode_of_decode_fullFamily full h
  · rw [decode_family0 hf] at h
    rw [encode_of_decodeFamily0 h, ← hf, encodeA_fields]
  · obtain ⟨low, h⟩ := Option.ite_none_right_eq_some.mp ((decode_family5 hf).symm.trans h)
    cases h
    rw [encode, ← hf, ← low, encodeXYN_fields]
  · rw [decode_family8 hf] at h
    rw [encode_of_decodeFamily8 h, ← hf, encodeXYN_fields]
  · obtain ⟨low, h⟩ := Option.ite_none_right_eq_some.mp ((decode_family9 hf).symm.trans h)
    cases h
    rw [encode, ← hf, ← low, encodeXYN_fields]
  · rw [decode_familyE hf] at h
    rw [encode_of_decodeFamilyE h, ← hf, encodeXI_fields]
  · rw [decode_familyF hf] at h
    rw [encode_of_decodeFamilyF h, ← hf, encodeXI_fields]

/-- Settles O33: each of the ten words is the encoding of its instruction. -/
theorem sampleWordsDecode : Obligations.SampleWordsDecode :=
  ⟨decodeOfEncode .cls, decodeOfEncode (.call 0xABC), decodeOfEncode (.seReg 0xA 0xB), decodeOfEncode (.addReg 3 4),
    decodeOfEncode (.shl 4 0xF), decodeOfEncode (.ldI 0x2F0), decodeOfEncode (.drw 1 2 5), decodeOfEncode (.skp 1),
    decodeOfEncode (.ldVxK 5), decodeOfEncode (.stRegs 2)⟩

end Sys2Proof
end

section
/-! SUPPORT. Nested calls: a CALL and a RET are inverse, and lists of instructions executed one after another. -/

namespace Sys2Proof.Machine

/-- Where a list of instructions completes, the instructions after it run on the state it gives. -/
theorem execAll_append {is : List Instr} {s t : State} (h : execAll is s = .next t) (js : List Instr) :
    execAll (is ++ js) s = execAll js t := by
  induction is generalizing s with
  | nil => cases h; rfl
  | cons i is ih =>
    rw [List.cons_append, execAll]
    rw [execAll] at h
    split at h
    · exact ih h
    · cases h
    · cases h

theorem execAll_cons {i : Instr} {s t : State} (h : exec i s = .next t) (is : List Instr) :
    execAll (i :: is) s = execAll is t := by rw [execAll, h]

/-- RET undoes CALL (40_control.md R101, R103). -/
theorem execAll_ret_of_call {nnn : Addr12} {s t : State} (h : exec (.call nnn) s = .next t) :
    execAll [.ret] t = .next s := by
  cases h
  rfl

end Sys2Proof.Machine
end

section
/-! O7: nested calls and as many returns (40_control.md R101). -/

namespace Sys2Proof.Machine

/-- Settles O7, by induction on the targets: the calls and returns inside the outermost pair restore the state that its
CALL left, and its RET undoes that CALL. -/
theorem nestedCallsReturn : Obligations.NestedCallsReturn := by
  intro targets
  induction targets with
  | nil => exact fun s => rfl
  | cons nnn targets ih =>
    intro s
    have outer := exec_call s nnn
    rw [List.map_cons, List.length_cons, List.replicate_succ', List.cons_append, execAll_cons outer,
      ← List.append_assoc, execAll_append (ih _), execAll_ret_of_call outer]

end Sys2Proof.Machine
end

section
/-! SUPPORT. What an address holds after a store, and what a fetch of it reads (20_memory.md section 3). -/

namespace Sys2Proof.Machine

variable {i : Instr} {x : Reg} {s t u : State}

/-- A block write as a read: the byte of the block where there is one, else what was there before. -/
theorem readByte_writeBytes_getD (base a : Nat) (bs : List Byte) : readByte (writeBytes base bs s) a =
    if base ≤ a then (bs[a - base]?).getD (readByte s a) else readByte s a := by
  rw [readByte_writeBytes]
  by_cases above : base ≤ a
  · by_cases inBlock : a - base < bs.length <;> simp [above, inBlock]
  · simp [above]

/-- A store of registers leaves in memory what a block write of their values does. -/
theorem readByte_storeRegs_getD (base count a : Nat) : readByte (storeRegs base count s) a =
    if base ≤ a then (((List.range count).map fun k => reg s (BitVec.ofNat 4 k))[a - base]?).getD (readByte s a)
    else readByte s a := by
  rw [readByte_storeRegs]
  by_cases above : base ≤ a
  · by_cases inBlock : a - base < count
    · simp [above, inBlock, show a < base + count by omega]
    · simp [above, inBlock, show ¬ a < base + count by omega]
  · simp [above]

/-- Every address holds after an instruction the byte stored there, or what it held before (43_index_memory.md R143,
R144). -/
theorem readByte_afterStore (h : exec i s = .next t) (a : Nat) : readByte t a = afterStore i s a := by
  obtain ⟨same, none⟩ | ⟨x, rfl, -, rfl⟩ | ⟨x, rfl, -, rfl⟩ := exec_mem_cases h
  · simp [readByte_of_mem same, afterStore, none]
  · exact readByte_writeBytes_getD _ _ _
  · exact readByte_storeRegs_getD _ _ _

/-- A fetch reads whatever bytes the memory holds at `pc`, in the byte order of its own state (20_memory.md R55). -/
theorem fetch_of_mem (mem : u.mem = t.mem) {a : Nat} (pc : u.pc.toNat = a) (fits : a ≤ 4094) :
    fetch u = some (joinBytes u.bo (readByte t a) (readByte t (a + 1))) := by
  rw [fetch, pc, readWord_of_le (by omega), readByte_of_mem mem, readByte_of_mem mem]

end Sys2Proof.Machine
end

section
/-! O25: instruction-fetch coherence (20_memory.md section 3). -/

namespace Sys2Proof.Machine

/-- Settles O25: a store that completes lies in memory, so the fetch reads its bytes there; and any fetch reads what the
memory holds after the instruction. -/
theorem fetchSeesStoredBytes : Obligations.FetchSeesStoredBytes := by
  refine ⟨fun x k j s t hj hx stored u hpc mem => ?_, fun x s t stored u mem => ?_, fun i s t h u mem fits => ?_⟩
  · obtain ⟨-, none⟩ | ⟨_, e, -⟩ | ⟨_, e, fits, rfl⟩ := exec_mem_cases stored
    · simp [storedBytes] at none
    · cases e
    · cases e
      have second : s.i.toNat + k.toNat + 1 = s.i.toNat + j.toNat := by omega
      rw [fetch_of_mem mem hpc (by omega), second, readByte_storeRegs_of_le _ (by omega), readByte_storeRegs_of_le _ hx]
  · obtain ⟨-, none⟩ | ⟨_, e, fits, rfl⟩ | ⟨_, e, -⟩ := exec_mem_cases stored
    · simp [storedBytes] at none
    · cases e
      have digit (k : Nat) (hk : k < 3) := readByte_writeBytes_add s.i.toNat (bs := decimalDigits (reg s x)) hk s
      have hundreds := digit 0 (by omega)
      refine ⟨fun hpc => ?_, fun hpc => ?_⟩
      · rw [fetch_of_mem mem hpc (by omega), digit 1 (by omega)]
        exact hundreds ▸ rfl
      · rw [fetch_of_mem mem hpc (by omega), digit 1 (by omega), digit 2 (by omega)]
        rfl
    · cases e
  · rw [fetch_of_mem mem rfl fits, readByte_afterStore h, readByte_afterStore h]

end Sys2Proof.Machine
end

section
/-! O28: the double draw (44_display.md). -/

namespace Sys2Proof.Machine

variable {x y : Reg} {n : Nibble} {s t u : State}

/-- What a sprite covers depends on its two coordinates, on `I` and on the memory only. -/
theorem spriteCovers_congr (hx : reg t x = reg s x) (hy : reg t y = reg s y) (index : t.i = s.i)
    (memory : ∀ a, readByte t a = readByte s a) : SpriteCovers t x y n = SpriteCovers s x y n := by
  funext px py
  simp only [SpriteCovers, hx, hy, index, memory]

/-- A draw whose coordinates are not in `VF` does not move the sprite. -/
theorem spriteCovers_of_exec_drw (hx : x ≠ 0xF#4) (hy : y ≠ 0xF#4) (h : exec (.drw x y n) s = .next t) :
    SpriteCovers t x y n = SpriteCovers s x y n := by
  have regs := exec_keepsRegsBut_destinations h
  have frame := exec_keepsAllBut_writtenParts h
  exact spriteCovers_congr (regs x (by simpa [destinations] using hx)) (regs y (by simpa [destinations] using hy))
    (frame .index (by simp [writtenParts])) (frame .memory (by simp [writtenParts]))

/-- `VF` after a draw is 1 exactly when a covered cell was on (44_display.md R151). -/
theorem exec_drw_flag_iff (h : exec (.drw x y n) s = .next t) :
    reg t 0xF#4 = 1 ↔ ∃ px py, SpriteCovers s x y n px py ∧ cell s px py = true := by
  obtain ⟨one, hit⟩ | ⟨zero, miss⟩ := exec_drw_flag h
  · exact iff_of_true one hit
  · exact iff_of_false (by rw [zero]; decide) miss

/-- Toggling the same cells twice restores the display. -/
theorem disp_of_draw_draw (same : SpriteCovers t x y n = SpriteCovers s x y n) (first : exec (.drw x y n) s = .next t)
    (second : exec (.drw x y n) t = .next u) : u.disp = s.disp := by
  refine display_ext fun px py => ?_
  have one := exec_drw_cell first px py
  have two := exec_drw_cell second px py
  rw [same] at two
  by_cases covered : SpriteCovers s x y n px py
  · exact (two.1 covered).trans (by rw [one.1 covered, Bool.not_not]; rfl)
  · exact (two.2 covered).trans (one.2 covered)

/-- Settles O28: both draws cover the same cells, so the second toggles them back, and finds one on exactly where the
first found it off. -/
theorem doubleDrawRestores : Obligations.DoubleDrawRestores := by
  intro x y n s hx hy fits
  have first := exec_drw_of_le (x := x) (y := y) fits
  generalize setFlag _ _ = t at first
  have same := spriteCovers_of_exec_drw hx hy first
  have index : t.i = s.i := exec_keepsAllBut_writtenParts first .index (by simp [writtenParts])
  have second := exec_drw_of_le (x := x) (y := y) (n := n) (s := t) (by rwa [index])
  generalize setFlag _ _ = u at second
  have restored := disp_of_draw_draw same first second
  refine ⟨u, by rw [execAll_cons first, execAll_cons second, execAll], restored, ?_, ?_, fun p hp => ?_⟩
  · rw [exec_drw_flag_iff second, same]
    refine exists₂_congr fun px py => and_congr_right fun covered => ?_
    rw [(exec_drw_cell first px py).1 covered, Bool.not_eq_true_eq_eq_false]
  · exact (exec_keepsRegsBut_destinations first).trans (exec_keepsRegsBut_destinations second)
  · by_cases display : p = .display
    · subst display
      exact fun px py => by simp only [cell, restored]
    · have unwritten : p ∉ writtenParts (.drw x y n) := by simpa [writtenParts, display] using hp
      exact (exec_keepsAllBut_writtenParts first).trans (exec_keepsAllBut_writtenParts second) p unwritten

end Sys2Proof.Machine
end

section
/-! O55: the writers of each part of the state (10_state.md sections 2 to 5). -/

namespace Sys2Proof.Machine

variable {i : Instr} {s t : State}

/-- A part that only the instructions with a property write is kept by an instruction without it. -/
theorem keeps_or_writes (h : exec i s = .next t) {p : Part} {named : Prop} (writers : p ∈ writtenParts i → named) :
    keeps s t p ∨ named := by
  by_cases written : p ∈ writtenParts i
  · exact .inr (writers written)
  · exact .inl (exec_keepsAllBut_writtenParts h p written)

theorem keys_notMem_writtenParts (i : Instr) : Part.keys ∉ writtenParts i := by cases i <;> simp [writtenParts]

/-- Settles O55: each part by the list of the parts an instruction writes, and `pc` by where each instruction leaves it. -/
theorem onlyNamedInstructionsWrite : Obligations.OnlyNamedInstructionsWrite := by
  intro i s t h
  have frame := exec_keepsAllBut_writtenParts h
  refine ⟨frame .keys (keys_notMem_writtenParts i), frame .mode (mode_notMem_writtenParts i),
    keeps_or_writes h ?_, keeps_or_writes h ?_, keeps_or_writes h ?_, keeps_or_writes h ?_, keeps_or_writes h ?_,
    keeps_or_writes h ?_, ?_⟩
  -- the named writers of the index, the stack, the two timers, the display and the memory, held against `writtenParts`
  iterate 6 cases i <;> simp [writtenParts]
  obtain hpc | ⟨nnn, rfl | rfl, -⟩ | ⟨nnn, rfl, -⟩ | ⟨rfl, -⟩ | skipped | ⟨x, waits, -, hpc⟩ := exec_pc_cases h
  · exact .inl hpc
  · exact .inr (.inl ⟨nnn, rfl⟩)
  · exact .inr (.inr (.inl ⟨nnn, rfl⟩))
  · exact .inr (.inr (.inr (.inl ⟨nnn, rfl⟩)))
  · exact .inr (.inr (.inr (.inr (.inl rfl))))
  · exact .inr (.inr (.inr (.inr (.inr (.inl skipped)))))
  · exact .inr (.inr (.inr (.inr (.inr (.inr ⟨x, waits, hpc⟩)))))

end Sys2Proof.Machine
end

section
/-! O57: the canonical memory is determined by what it reads as (20_memory.md sections 1 and 2). -/

namespace Sys2Proof.Machine

variable {m n : Memory}

/-- Where addresses rise, each listed cell is the one its address reads. -/
theorem Memory.read_of_mem (rising : m.Pairwise fun c d => c.1 < d.1) {c : Host.Cell} (hc : c ∈ m) :
    m.read c.1 = c.2 := by
  induction m with
  | nil => cases hc
  | cons d m ih =>
    obtain ⟨above, rising⟩ := List.pairwise_cons.mp rising
    rw [Memory.read_cons]
    rcases List.mem_cons.mp hc with rfl | hc
    · rw [if_pos rfl]
    · rw [if_neg (Nat.ne_of_gt (above c hc)), ih rising hc]

/-- An address that does not read as its reset contents is listed. -/
theorem Memory.mem_of_read {a : Nat} (h : m.read a ≠ initialByte a) : (a, m.read a) ∈ m := by
  induction m with
  | nil => exact absurd (Memory.read_nil a) h
  | cons d m ih =>
    rw [Memory.read_cons] at h ⊢
    by_cases here : a = d.1
    · rw [if_pos here, here]
      exact List.mem_cons_self
    · rw [if_neg here] at h ⊢
      exact List.mem_cons_of_mem d (ih h)

/-- A canonical memory lists exactly the cells that differ from their reset contents (log entry 14). -/
theorem Memory.mem_iff_read (wf : m.wf) (c : Host.Cell) : c ∈ m ↔ m.read c.1 = c.2 ∧ c.2 ≠ initialByte c.1 := by
  obtain ⟨rising, cells⟩ := wf
  constructor
  · exact fun hc => ⟨Memory.read_of_mem rising hc, (cells c hc).2⟩
  · rintro ⟨hread, differs⟩
    have listed := Memory.mem_of_read (hread.symm ▸ differs)
    rwa [hread] at listed

/-- Settles O57: both memories list the cells that differ from their reset contents, in the order of the addresses. -/
theorem canonicalMemoryIsUnique : Obligations.CanonicalMemoryIsUnique := by
  intro m n wfm wfn alike
  have sameCells : ∀ c, c ∈ m ↔ c ∈ n := fun c => by rw [Memory.mem_iff_read wfm, Memory.mem_iff_read wfn, alike]
  have nodup : ∀ {l : Memory}, l.wf → l.Nodup := fun wf => wf.1.imp fun lt e => Nat.ne_of_lt lt (congrArg Prod.fst e)
  refine ((List.perm_ext_iff_of_nodup (nodup wfm) (nodup wfn)).mpr sameCells).eq_of_pairwise ?_ wfm.1 wfn.1
  exact fun c d _ _ lt gt => absurd lt (Nat.lt_asymm gt)

end Sys2Proof.Machine
end

section
/-! SUPPORT. Changing what no instruction reads: the byte order and the sound timer (10_state.md sections 3 and 5). -/

namespace Sys2Proof.Machine

/-- Change the byte order and the sound timer, each from its old value. -/
def mapUnread (g : ByteOrder → ByteOrder) (f : Byte → Byte) (s : State) : State := setBo (g s.bo) (setSt (f s.st) s)

variable {g : ByteOrder → ByteOrder} {f : Byte → Byte} {s : State}

/-- The range check looks at the range only. -/
theorem withinMemory_mapNext (first count : Nat) (h : State → State) (u : State) :
    withinMemory first count (h u) = mapNext h (withinMemory first count u) := by
  unfold withinMemory
  split <;> rfl

theorem storeRegs_mapUnread (base count : Nat) :
    storeRegs base count (mapUnread g f s) = mapUnread g f (storeRegs base count s) := by
  induction count with
  | zero => rfl
  | succ n ih =>
    rw [storeRegs_succ, storeRegs_succ, ih]
    rfl

theorem loadRegs_mapUnread (base count : Nat) :
    loadRegs base count (mapUnread g f s) = mapUnread g f (loadRegs base count s) := by
  induction count with
  | zero => rfl
  | succ n ih =>
    rw [loadRegs_succ, loadRegs_succ, ih]
    rfl

theorem skipIf_mapUnread (c : Bool) : skipIf c (mapUnread g f s) = mapUnread g f (skipIf c s) := by cases c <;> rfl

theorem skipOnKey_mapUnread (x : Reg) (want : Bool) :
    skipOnKey x want (mapUnread g f s) = mapNext (mapUnread g f) (skipOnKey x want s) := by
  have selects : reg (mapUnread g f s) x = reg s x := rfl
  unfold skipOnKey
  rw [selects]
  cases selectedKey (reg s x) with
  | none => rfl
  | some k => exact congrArg _ (skipIf_mapUnread _)

/-- No instruction but LD ST reads or writes what is changed. -/
theorem exec_mapUnread {i : Instr} (notSound : ∀ x, i ≠ .ldStVx x) :
    exec i (mapUnread g f s) = mapNext (mapUnread g f) (exec i s) := by
  cases i with
  | ldStVx x => exact absurd rfl (notSound x)
  | ret =>
    have stack : (mapUnread g f s).stack = s.stack := rfl
    simp only [exec, execRet, stack]
    cases s.stack <;> rfl
  | seImm | sneImm | seReg | sneReg => exact congrArg _ (skipIf_mapUnread _)
  | skp x => exact skipOnKey_mapUnread x true
  | sknp x => exact skipOnKey_mapUnread x false
  | ldVxK x =>
    have keys : firstPressed (mapUnread g f s) = firstPressed s := rfl
    simp only [exec, execLdVxK, keys]
    cases firstPressed s <;> rfl
  | drw x y n =>
    exact withinMemory_mapNext (effective s 0) n.toNat (mapUnread g f)
      (setFlag (spriteDrawn x y n s).2 (setDisp (spriteDrawn x y n s).1 s))
  | ldB x =>
    exact withinMemory_mapNext (effective s 0) 3 (mapUnread g f)
      (writeBytes (effective s 0) (decimalDigits (reg s x)) s)
  | stRegs x =>
    rw [exec, execStRegs, storeRegs_mapUnread]
    exact withinMemory_mapNext _ _ (mapUnread g f) _
  | ldRegs x =>
    rw [exec, execLdRegs, loadRegs_mapUnread]
    exact withinMemory_mapNext _ _ (mapUnread g f) _
  | _ => rfl

end Sys2Proof.Machine
end

section
/-! O58: no instruction reads the sound timer or the byte order (10_state.md sections 3 and 5). -/

namespace Sys2Proof.Machine

/-- Settles O58: setting one of the two is changing what no instruction reads; LD ST alone overwrites the timer. -/
theorem soundAndByteOrderAreNeverRead : Obligations.SoundAndByteOrderAreNeverRead := by
  refine ⟨fun i s mode => ?_, fun i s b notSound => ?_, fun x s b => rfl⟩
  · by_cases sound : ∃ x, i = .ldStVx x
    · obtain ⟨x, rfl⟩ := sound
      rfl
    · exact exec_mapUnread (g := fun _ => mode) (f := id) (not_exists.mp sound)
  · exact exec_mapUnread (g := id) (f := fun _ => b) notSound

end Sys2Proof.Machine
end

section
/-! SUPPORT. The fixed points of the step (70_reset_and_hazards.md section 5). -/

namespace Sys2Proof.Machine

variable {s : State} {a : Word}

/-- A jump to itself stands at `pc`: JP or JP V0 whose target is its own address. -/
def JumpsToItself (s : State) : Prop := ∃ nnn : Addr12,
  (fetch s = some (wordA 0x1000#16 nnn) ∧ s.pc.toNat = nnn.toNat) ∨
  (fetch s = some (wordA 0xB000#16 nnn) ∧ s.pc.toNat = (reg s 0).toNat + nnn.toNat)

/-- A wait for a key stands at `pc` and no key is pressed. -/
def WaitsForKey (s : State) : Prop := (∃ x, fetch s = some (wordXF 0xF00A#16 x)) ∧ ∀ k, keyFlag s k = false

theorem encode_jp (nnn : Addr12) : encode (.jp nnn) = wordA 0x1000#16 nnn := (wordA_eq 0x1#4 nnn).symm

theorem encode_jpV0 (nnn : Addr12) : encode (.jpV0 nnn) = wordA 0xB000#16 nnn := (wordA_eq 0xB#4 nnn).symm

theorem encode_ldVxK (x : Reg) : encode (.ldVxK x) = wordXF 0xF00A#16 x := (wordXF_eq 0xF#4 0x0A#8 x).symm

/-- A step that changes nothing has executed an instruction that put `pc` back and left the stack as it was: neither CALL
nor RET nor a skip, so a jump to itself or a wait. -/
theorem step_fixed_cases (h : step s = .next s) : JumpsToItself s ∨ WaitsForKey s := by
  obtain ⟨op, i, hf, hd, hx⟩ := step_next h
  have word : fetch s = some (encode i) := by rw [hf, encodeOfDecode op i hd]
  obtain hpc | ⟨nnn, rfl | rfl, hpc⟩ | ⟨nnn, rfl, hpc⟩ | ⟨rfl, -⟩ | ⟨c, -, -, hpc⟩ | ⟨x, rfl, up, -⟩ := exec_pc_cases hx
  · rw [advancePc_pc] at hpc
    bv_omega
  · exact .inl ⟨nnn, .inl ⟨encode_jp nnn ▸ word, by rw [hpc, toNat_absolute]⟩⟩
  · have pushed : s.stack = _ :: s.stack := congrArg State.stack (Host.Outcome.next.inj hx).symm
    exact absurd pushed.symm (List.cons_ne_self _ _)
  · exact .inl ⟨nnn, .inr ⟨encode_jpV0 nnn ▸ word, by rw [hpc, toNat_indexedTarget, reg_advancePc]⟩⟩
  · obtain ⟨top, rest, popped, e⟩ := execRet_next hx
    rw [advancePc_stack, e] at popped
    exact absurd popped.symm (List.cons_ne_self _ _)
  · rw [advancePc_pc] at hpc
    bv_omega
  · exact .inr ⟨⟨x, encode_ldVxK x ▸ word⟩, (firstPressed_eq_none_iff s).mp up⟩

/-- A jump to itself has finished: its target overwrites the fetch's advance, whatever the keys. -/
theorem finishedAt_of_jumpsToItself (h : JumpsToItself s) : FinishedAt s.pc s := by
  obtain ⟨nnn, ⟨hf, target⟩ | ⟨hf, target⟩⟩ := h
  · have self : s.pc = absolute nnn := BitVec.eq_of_toNat_eq (by rw [target, toNat_absolute])
    refine finishedAt_of_exec rfl hf (decode_wordA_jp nnn) fun keys => ?_
    exact congrArg _ (setPc_of_pc_eq (s := setKey keys s) self)
  · have self : s.pc = indexedTarget s nnn := BitVec.eq_of_toNat_eq (by rw [target, toNat_indexedTarget])
    refine finishedAt_of_exec rfl hf (decode_wordA_jpV0 nnn) fun keys => ?_
    exact congrArg _ (setPc_of_pc_eq (s := setKey keys s) self)

/-- A finished machine stands at a jump to itself: with every key pressed it would not wait for one. -/
theorem jumpsToItself_of_finishedAt (h : FinishedAt a s) : JumpsToItself s := by
  obtain ⟨-, fixed⟩ := h (Vector.replicate 16 true)
  obtain jump | ⟨-, up⟩ := step_fixed_cases fixed
  · exact jump
  · have down := up 0
    simp [keyFlag] at down

theorem finishedAt_iff_jumpsToItself : FinishedAt a s ↔ s.pc = a ∧ JumpsToItself s := by
  constructor
  · exact fun h => ⟨(finishedAt_fixedAt h).1, jumpsToItself_of_finishedAt h⟩
  · rintro ⟨rfl, jump⟩
    exact finishedAt_of_jumpsToItself jump

theorem step_of_waitsForKey (h : WaitsForKey s) : step s = .next s := by
  obtain ⟨⟨x, hf⟩, up⟩ := h
  exact step_ldVxK_of_none hf (decode_wordXF_familyF 0x0A#8 x) up

/-- Steps leave a finished machine as it is. -/
theorem run_of_finishedAt (h : FinishedAt a s) (k : Nat) : Sys2Proof.core.run k s = .next s := by
  induction k with
  | zero => rfl
  | succ k ih => rw [run_next (finishedAt_fixedAt h).2, ih]

/-- A tick does not touch what a jump to itself depends on. -/
theorem finishedAt_tickTimers (h : FinishedAt a s) : FinishedAt a (tickTimers s).1 := by
  rw [finishedAt_iff_jumpsToItself] at h ⊢
  exact h

/-- A machine that has finished still runs, and stays finished over every host operation but a reset, a load and a change
of the byte order. -/
theorem finishedAt_of_call {c : HostCall} {w : Session} {r : Reply} (h : FinishedAt a s) (notReset : c ≠ .reset)
    (notOrder : ∀ mode, c ≠ .setByteOrder mode) (notLoad : ∀ bytes, c ≠ .loadProgram bytes)
    (hc : Session.call c (.running s) = .next (w, r)) : ∃ t, w = .running t ∧ FinishedAt a t := by
  cases c with
  | reset => exact absurd rfl notReset
  | setByteOrder mode => exact absurd rfl (notOrder mode)
  | loadProgram bytes => exact absurd rfl (notLoad bytes)
  | step =>
    have stays := (finishedAt_fixedAt h).2
    obtain ⟨t, hstep, rfl, -⟩ | ⟨f, code, op, a, hstep, -⟩ := stepSeen_cases hc
    · cases stays.symm.trans hstep
      exact ⟨s, rfl, h⟩
    · cases stays.symm.trans hstep
  | tickTimers => cases hc; exact ⟨_, rfl, finishedAt_tickTimers h⟩
  | setPressed k b =>
    obtain ⟨t, hset, rfl, -⟩ := runsOn_next hc
    obtain ⟨inContract, rfl⟩ := setPressed_next hset
    exact ⟨_, rfl, (finishedAt_setKey _).mpr h⟩
  | snapshot => cases hc; exact ⟨s, rfl, h⟩

end Sys2Proof.Machine
end

section
/-! O60: finished is a jump to itself (70_reset_and_hazards.md section 5). -/

namespace Sys2Proof.Machine

/-- Settles O60: the two kinds of fixed points, of which only the jump to itself is one whatever the keys. -/
theorem finishedIsAJumpToItself : Obligations.FinishedIsAJumpToItself := by
  refine ⟨fun a s => ?_, fun s => ⟨fun fixed => ?_, ?_⟩, fun a s k h => run_of_finishedAt h k,
    fun a s h => ⟨finishedAt_tickTimers h, fun k b => ?_⟩,
    fun a s c w r h notReset notOrder notLoad => finishedAt_of_call h notReset notOrder notLoad⟩
  · rw [finishedAt_iff_jumpsToItself]
    exact and_congr_right fun hpc => by rw [JumpsToItself, hpc]
  · exact (step_fixed_cases fixed).imp finishedAt_of_jumpsToItself id
  · rintro (finished | waits)
    · exact (finishedAt_fixedAt finished).2
    · exact step_of_waitsForKey waits
  · refine ⟨_, setPressed_of_fin k b s, ?_, (finishedAt_setKey _).mpr h⟩
    rw [keyFlag_setKey_set, if_pos rfl]

end Sys2Proof.Machine
end


section
/-! SUPPORT. Counting the numbers below a bound by blocks and by residues, and the legal words of each family by the
residues of their low part (30_encoding.md section 3). -/

namespace Sys2Proof

/-- The numbers below `a * b` with a property, counted in `a` blocks of `b`. -/
theorem countP_range_mul (p : Nat → Bool) (a b : Nat) : (List.range (a * b)).countP p =
    ((List.range a).map fun q => (List.range b).countP fun r => p (q * b + r)).sum := by
  induction a with
  | zero => simp
  | succ a ih =>
    rw [Nat.succ_mul, List.range_add, List.countP_append, ih, List.range_succ, List.map_append, List.sum_append,
      List.countP_map]
    simp [Function.comp_def]

/-- The numbers below `n` that are listed are as many as the list has. -/
theorem countP_range_mem {l : List Nat} {n : Nat} (nodup : l.Nodup) (below : ∀ v ∈ l, v < n) :
    (List.range n).countP (fun v => decide (v ∈ l)) = l.length := by
  rw [List.countP_eq_length_filter]
  refine ((List.perm_ext_iff_of_nodup (List.nodup_range.filter _) nodup).mpr fun v => ?_).length_eq
  rw [List.mem_filter, List.mem_range, decide_eq_true_iff]
  exact and_iff_right_of_imp (below v)

/-- The numbers below `a * b` whose residue modulo `b` is listed: as many in each of the `a` blocks. -/
theorem countP_range_mod_mem {l : List Nat} {b : Nat} (a : Nat) (nodup : l.Nodup) (below : ∀ v ∈ l, v < b) :
    (List.range (a * b)).countP (fun w => decide (w % b ∈ l)) = a * l.length := by
  have block (q : Nat) : (List.range b).countP (fun r => decide ((q * b + r) % b ∈ l)) = l.length := by
    rw [← countP_range_mem nodup below]
    refine List.countP_congr fun r hr => ?_
    rw [Nat.mul_add_mod_self_right, Nat.mod_eq_of_lt (List.mem_range.mp hr)]
  simp only [countP_range_mul, block, List.map_const', List.length_range, List.sum_replicate, smul_eq_mul]

/-- The modulus by which a family selects its instructions: the low nibble, the low byte, all 12 low bits, or nothing. -/
def familyModulus (f : Nat) : Nat :=
  if f = 0x0 then 4096 else if f = 0x5 ∨ f = 0x8 ∨ f = 0x9 then 16 else if f = 0xE ∨ f = 0xF then 256 else 1

/-- The residues a family has an instruction for (30_encoding.md R75). -/
def familyResidues (f : Nat) : List Nat :=
  if f = 0x0 then [0x000, 0x0E0, 0x0EE]
  else if f = 0x8 then [0x0, 0x1, 0x2, 0x3, 0x4, 0x5, 0x6, 0x7, 0xE]
  else if f = 0xE then [0x9E, 0xA1]
  else if f = 0xF then [0x07, 0x0A, 0x15, 0x18, 0x1E, 0x29, 0x33, 0x55, 0x65]
  else [0]

/-- A word of family `f` is legal exactly when its low part leaves one of the family's residues (30_encoding.md R77). -/
theorem legalWord_ofNat {f low : Nat} (hf : f < 16) (hlow : low < 4096) :
    WellFormed.legalWord (BitVec.ofNat 16 (f * 4096 + low)) = decide (low % familyModulus f ∈ familyResidues f) := by
  have number : (BitVec.ofNat 16 (f * 4096 + low)).toNat = f * 4096 + low := by
    rw [BitVec.toNat_ofNat]; omega
  have family : (f * 4096 + low) / 4096 = f := by omega
  have byte : (f * 4096 + low) % 256 = low % 256 := by omega
  have nibble : (f * 4096 + low) % 16 = low % 16 := by omega
  rw [Bool.eq_iff_iff]
  simp only [WellFormed.legalWord, number, family, byte, nibble]
  interval_cases f <;> simp [familyModulus, familyResidues] <;> omega

/-- The legal words of a family: its residues, as often as its modulus goes into the 12 low bits. -/
theorem countP_legalWord_family {f : Nat} (hf : f < 16) :
    (List.range 4096).countP (fun low => WellFormed.legalWord (BitVec.ofNat 16 (f * 4096 + low))) =
      4096 / familyModulus f * (familyResidues f).length := by
  have table : ∀ f < 16, 4096 / familyModulus f * familyModulus f = 4096 ∧ (familyResidues f).Nodup ∧
      ∀ v ∈ familyResidues f, v < familyModulus f := by decide
  obtain ⟨divides, nodup, below⟩ := table f hf
  rw [← countP_range_mod_mem _ nodup below, divides]
  exact List.countP_congr fun low hlow => by rw [legalWord_ofNat hf (List.mem_range.mp hlow)]

/-- The legal words of all 16 families. -/
theorem countP_legalWord : (List.range 65536).countP (fun w => WellFormed.legalWord (BitVec.ofNat 16 w)) = 43955 := by
  have blocks := countP_range_mul (fun w => WellFormed.legalWord (BitVec.ofNat 16 w)) 16 4096
  have families : ((List.range 16).map fun f =>
      (List.range 4096).countP fun low => WellFormed.legalWord (BitVec.ofNat 16 (f * 4096 + low))) =
      (List.range 16).map fun f => 4096 / familyModulus f * (familyResidues f).length :=
    List.map_congr_left fun _ hf => countP_legalWord_family (List.mem_range.mp hf)
  have total : ((List.range 16).map fun f => 4096 / familyModulus f * (familyResidues f).length).sum = 43955 := by decide
  rw [families, total] at blocks
  exact blocks

end Sys2Proof
end

section
/-! O54: how many words decode (30_encoding.md section 3). -/

namespace Sys2Proof

/-- The words that decode are the legal ones. -/
theorem isSome_decode (op : Word) : (decode op).isSome = WellFormed.legalWord op := by
  have illegal := decode_eq_none_iff_illegal op
  cases hd : decode op <;> cases hl : WellFormed.legalWord op <;> simp_all

theorem countP_isSome_decode :
    (List.range 65536).countP (fun w => (decode (BitVec.ofNat 16 w)).isSome) = 43955 :=
  (List.countP_congr fun w _ => by rw [isSome_decode]).trans countP_legalWord

/-- Of the numbers below `n`, as words, those that decode and those that do not are all. -/
theorem countP_isSome_add_isNone (n : Nat) :
    (List.range n).countP (fun w => (decode (BitVec.ofNat 16 w)).isSome) +
      (List.range n).countP (fun w => (decode (BitVec.ofNat 16 w)).isNone) = n := by
  have all := List.length_eq_countP_add_countP (fun w => (decode (BitVec.ofNat 16 w)).isSome) (l := List.range n)
  rw [List.length_range] at all
  exact (all.trans (congrArg _ (List.countP_congr fun w _ => by simp))).symm

/-- Settles O54: the legal words are counted family by family, and the words that do not decode are the rest. -/
theorem legalWordCount : Obligations.LegalWordCount := by
  have legal := countP_isSome_decode
  have all := countP_isSome_add_isNone 65536
  rw [legal] at all
  exact ⟨List.countP_eq_length_filter.symm.trans legal,
    List.countP_eq_length_filter.symm.trans (Nat.add_left_cancel (all.trans (rfl : 65536 = 43955 + 21581)))⟩

end Sys2Proof
end

section
/-! O5, O21: the finite call stack and the overflow of `I` (40_control.md R103, 43_index_memory.md R141). -/

namespace Sys2Proof.Machine

/-- Settles O5: the capacity is compared with the depth before anything is pushed. -/
theorem finiteStackOverflows : Obligations.FiniteStackOverflows := by
  refine fun n nnn s => ⟨fun full => ?_, fun room => ?_⟩
  · have noRoom : stackFull (some n) s = true := decide_eq_true (Nat.le_of_eq full.symm)
    rw [callWithin, if_pos noRoom]
  · have hasRoom : ¬ stackFull (some n) s = true := by simpa [stackFull] using room
    rw [callWithin, if_neg hasRoom]
    rfl

/-- Settles O21: a byte added to a 16-bit `I` overflows by less than 65536, and nothing but `I` is written. -/
theorem indexSumWraps : Obligations.IndexSumWraps := by
  intro x s overflow
  have byte := (reg s x).isLt
  have index := s.i.isLt
  refine ⟨_, exec_addI s x, ?_, reg_setI _ s _⟩
  rw [setI_i, toNat_indexPlus]
  omega

end Sys2Proof.Machine
end

section
/-! O17: the ALU instructions with `VF` as destination, and with one register as both operands (42_alu.md section 1). -/

namespace Sys2Proof.Machine

/-- Writing into a register what it holds changes no register. -/
theorem reg_setReg_of_eq {x : Reg} {b : Byte} {s : State} (h : b = reg s x) (r : Reg) :
    reg (setReg x b s) r = reg s r := by
  rw [reg_setReg, h]
  split
  · next e => rw [e]
  · rfl

/-- The flag of ADD of a register to itself is its bit 7. -/
theorem double_gt_iff (b : Byte) : b.toNat + b.toNat > 255 ↔ 128 ≤ b.toNat := by omega

/-- With `VF` as destination SHL leaves the old bit 7, shifted. -/
theorem shiftLeft1_highBit_flag (b : Byte) :
    shiftLeft1 (if highBit b then 1 else 0) = if 128 ≤ b.toNat then 2 else 0 := by
  have := b.isLt
  apply BitVec.eq_of_toNat_eq
  rw [toNat_shiftLeft1_highBit_flag]
  split
  · rw [show b.toNat / 128 = 1 by omega]; rfl
  · rw [show b.toNat / 128 = 0 by omega]; rfl

/-- A register subtracted from itself leaves 0 and no borrow, whichever of SUB and SUBN does it (42_alu.md section 1). -/
theorem resultThenFlag_self (y : Reg) (b : Byte) (s : State) :
    reg (resultThenFlag y (difference8 b b) (noBorrow b b) s) 0xF#4 = 1 ∧
      (y ≠ 0xF#4 → reg (resultThenFlag y (difference8 b b) (noBorrow b b) s) y = 0) := by
  refine ⟨?_, fun notF => ?_⟩
  · rw [reg_resultThenFlag_noBorrow, if_neg (Nat.lt_irrefl _)]
  · rw [reg_resultThenFlag_dest notF, difference8_eq_sub, BitVec.sub_self]
    rfl

/-- Settles O17: for ADD, SUB and SUBN the flag is the last write, for the shifts the shift of the flag is; with `x = y`
each result is that of one operand on itself. -/
theorem flagRegisterAsDestination : Obligations.FlagRegisterAsDestination := by
  refine fun y s => ⟨⟨_, exec_addReg s _ y, reg_resultThenFlag_carryOut _ _ _ _ s⟩,
    ⟨_, exec_subReg s _ y, reg_resultThenFlag_noBorrow _ _ _ _ s⟩,
    ⟨_, exec_subnReg s _ y, reg_resultThenFlag_noBorrow _ _ _ _ s⟩,
    ⟨_, exec_shr s _ y, exec_shr_flagReg (exec_shr s _ y)⟩, ⟨_, exec_shl s _ y, ?_⟩, ⟨_, exec_xorReg s y y, ?_⟩,
    ⟨_, exec_orReg s y y, reg_setReg_of_eq BitVec.or_self⟩, ⟨_, exec_andReg s y y, reg_setReg_of_eq BitVec.and_self⟩,
    ⟨_, exec_addReg s y y, ?_, fun notF => ?_⟩, ⟨_, exec_subReg s y y, resultThenFlag_self y _ s⟩,
    ⟨_, exec_subnReg s y y, resultThenFlag_self y _ s⟩⟩
  · rw [reg_flagThenShift_self, shiftLeft1_highBit_flag]
  · rw [reg_setReg_self, BitVec.xor_self]
    rfl
  · simp only [reg_resultThenFlag_carryOut, double_gt_iff]
  · rw [reg_resultThenFlag_dest notF, toNat_sum8, Nat.two_mul]

end Sys2Proof.Machine
end

section
/-! O35, O39, O43, O45: the host's operations at the edges of their contracts (60_exceptions.md R177, R182,
92_eei_decisions.md D10, D14, D17, D19). -/

namespace Sys2Proof.Machine

/-- Settles O35: what a call means after a fatal condition, operation by operation. -/
theorem fatalEndsTheRun : Obligations.FatalEndsTheRun := by
  refine fun s => ⟨rfl, rfl, fun c notReset notSnapshot => ?_⟩
  cases c with
  | reset => exact absurd rfl notReset
  | snapshot => exact absurd rfl notSnapshot
  | setByteOrder | loadProgram | step | tickTimers | setPressed => rfl

/-- A count goes from non-zero to zero exactly from 1. -/
theorem eq_one_iff_countDown (b : Byte) : b = 1 ↔ b ≠ 0 ∧ countDown b = 0 := by
  have down := toNat_countDown b
  constructor
  · rintro rfl
    exact ⟨by decide, rfl⟩
  · rintro ⟨nonzero, stops⟩
    rw [stops] at down
    bv_omega

/-- Settles O39: the tick's result compares `ST` with 1, and what a step answers the host is `done` or a diagnostic. -/
theorem soundStopsFromOneToZero : Obligations.SoundStopsFromOneToZero := by
  refine fun s => ⟨decide_eq_true_iff.trans (eq_one_iff_countDown s.st), fun w r h e => ?_⟩
  obtain ⟨t, -, -, rfl⟩ | ⟨f, code, op, a, -, -, -, rfl⟩ := stepSeen_cases h
  · exact fun other => by cases other
  · exact fun other => by cases other

/-- A block write that would end above the memory is refused (20_memory.md R66). -/
theorem writeBlock_of_lt {data : List Byte} {a : Nat} (beyond : 4096 < a + data.length) (s : State) :
    writeBlock data a s = .refused .blockOutOfContract := by
  have outside : ¬ WellFormed.blockFits data.length a = true := by simpa [WellFormed.blockFits] using beyond
  rw [writeBlock, if_neg outside]

theorem setPressed_of_gt {k : Nat} (beyond : 15 < k) (b : Bool) (s : State) :
    setPressed k b s = .refused .keyIndexOutOfContract := dif_neg (Nat.not_lt.mpr beyond)

/-- Settles O43: each call checks its contract before it writes. -/
theorem callsOutsideContractAreRefused : Obligations.CallsOutsideContractAreRefused := by
  refine ⟨fun k b s beyond => congrArg runsOn (setPressed_of_gt beyond b s), fun bytes s beyond => ?_,
    fun data a s beyond => writeBlock_of_lt beyond s⟩
  have beyondMemory : 4096 < Config.progStart + bytes.length := by simp only [Config.progStart]; omega
  exact congrArg runsOn (writeBlock_of_lt beyondMemory s)

/-- The memory above the font is zero after reset (10_state.md R36). -/
theorem initialByte_of_le {a : Nat} (above : 80 ≤ a) : initialByte a = 0 := by
  rw [initialByte, List.getD_eq_default]
  rwa [length_fontTable]

/-- Settles O45: each part of the reset state as it reads. -/
theorem resetClearsIndexKeysMemory : Obligations.ResetClearsIndexKeysMemory := by
  refine ⟨reset_i, fun k => ?_, fun a above => ?_, length_fontTable⟩
  · simp [keyFlag, State.reset]
  · rw [readByte_reset, initialByte_of_le above]

end Sys2Proof.Machine
end

section
/-! O46: the run from reset with nothing loaded (70_reset_and_hazards.md section 2). -/

namespace Sys2Proof.Machine

/-- The reset state after `k` NOPs. -/
def resetAfterNops (k : Nat) : State := setPc (BitVec.ofNat 16 (512 + 2 * k)) State.reset

theorem toNat_resetAfterNops_pc {k : Nat} (h : k ≤ 1792) : (resetAfterNops k).pc.toNat = 512 + 2 * k := by
  rw [resetAfterNops, setPc_pc, BitVec.toNat_ofNat]
  omega

/-- Memory as reset leaves it holds a NOP at every address from 80 up to 4094. -/
theorem fetch_resetAfterNops {k : Nat} (h : k < 1792) : fetch (resetAfterNops k) = some 0x0000#16 := by
  have mem : (resetAfterNops k).mem = State.reset.mem := rfl
  rw [fetch_of_mem mem (toNat_resetAfterNops_pc h.le) (by omega), readByte_reset, readByte_reset,
    initialByte_of_le (by omega), initialByte_of_le (by omega)]
  rfl

theorem step_resetAfterNops {k : Nat} (h : k < 1792) : step (resetAfterNops k) = .next (resetAfterNops (k + 1)) := by
  have advanced : advancePc (resetAfterNops k) = resetAfterNops (k + 1) := by
    have pc : BitVec.ofNat 16 (512 + 2 * k) + 2 = BitVec.ofNat 16 (512 + 2 * (k + 1)) :=
      (BitVec.ofNat_add (512 + 2 * k) 2).symm
    exact congrArg (setPc · State.reset) pc
  rw [step_of_decode_some (fetch_resetAfterNops h) rfl, exec_nop, advanced]

theorem run_reset_of_le {k : Nat} (h : k ≤ 1792) : Sys2Proof.core.run k State.reset = .next (resetAfterNops k) := by
  induction k with
  | zero => rfl
  | succ k ih => rw [run_add (ih (by omega)) 1, run_next (step_resetAfterNops h)]; rfl

/-- Settles O46: 1792 NOPs one after another, and from 4096 there is no fetch. -/
theorem emptyMachineRunsNops : Obligations.EmptyMachineRunsNops := by
  refine ⟨fun k h => run_reset_of_le h, fun k h => ?_⟩
  obtain ⟨j, rfl⟩ := Nat.exists_eq_add_of_lt h
  have beyond : 4094 < (resetAfterNops 1792).pc.toNat := by rw [toNat_resetAfterNops_pc le_rfl]; omega
  rw [Nat.add_assoc, run_add (run_reset_of_le le_rfl), run_fault (step_of_pc_gt beyond)]

end Sys2Proof.Machine
end

section
/-! O59: the three ways a step ends (70_reset_and_hazards.md section 5). -/

namespace Sys2Proof.Machine

/-- No instruction is refused: each completes or faults by its one check (60_exceptions.md R175). -/
theorem exec_ne_refused (i : Instr) (s : State) (r : Refusal) : exec i s ≠ .refused r := by
  intro h
  cases hc : failedCheck i s with
  | some f => cases h.symm.trans (exec_of_failedCheck hc)
  | none =>
    obtain ⟨t, hx⟩ := exec_completes_of_failedCheck_none hc
    cases h.symm.trans hx

theorem step_ne_refused (s : State) (r : Refusal) : step s ≠ .refused r := by
  intro h
  cases hf : fetch s with
  | none => cases h.symm.trans (step_of_fetch_none hf)
  | some op =>
    cases hd : decode op with
    | none => cases h.symm.trans (step_of_decode_none hf hd)
    | some i => exact exec_ne_refused i _ r ((step_of_decode_some hf hd).symm.trans h)

/-- Settles O59: a step answers a next state or a fault, and a fault has a diagnostic or none. -/
theorem runsEndInThreeWays : Obligations.RunsEndInThreeWays := by
  refine ⟨fun s => ?_, step_ne_refused, fun w => rfl⟩
  have seen : Session.call .step (.running s) = stepSeen s (step s) := rfl
  cases hstep : step s with
  | next t => exact .inl ⟨t, rfl, by rw [seen, hstep]; rfl⟩
  | refused r => exact absurd hstep (step_ne_refused s r)
  | fault f =>
    cases hd : diagnostic f with
    | some d => exact .inr (.inl ⟨f, d.1, d.2.1, d.2.2, rfl, hd, by rw [seen, hstep, stepSeen_fault hd]⟩)
    | none => exact .inr (.inr ⟨f, rfl, hd, by rw [seen, hstep, stepSeen, hd]⟩)

end Sys2Proof.Machine
end
